-- ==== Sys2Proof/Word.lean ====
section
/-!
DEFINITION. The word types of the block: bytes, the 32-bit command word, the 64-bit lanes, and the
fixed-size arrays made of them (spec/00_scope.md R6, R12; spec/10_state.md R20).
-/

namespace Sys2Proof

/-- A byte, an 8-bit unsigned value (R12). -/
abbrev Byte := BitVec 8

/-- A command word CMD, 32 bits (R65). -/
abbrev Word := BitVec 32

/-- One 64-bit lane of the 5 by 5 state matrix (R20). -/
abbrev Lane := BitVec 64

/-- A sponge state: an array of exactly 200 bytes (R20). -/
abbrev Sponge := Vector Byte 200

/-- The lane matrix of a sponge state: 25 lanes, lane (x,y) at index x + 5y (R21). -/
abbrev Lanes := Vector Lane 25

/-- A digest: 32 bytes, D[0] first (R48, R76). -/
abbrev Digest := Vector Byte 32

/-- 200 zero bytes: the reset value of CTX_S and the start of a one-shot hash (R23, R130, R148). -/
def zeroSponge : Sponge := Vector.replicate 200 0

/-- 32 zero bytes: the DIGEST field of a response that carries no digest (R76). -/
def zeroDigest : Digest := Vector.replicate 32 0

end Sys2Proof
end

