-- ==== Sys2Proof/Syntax.lean ====
section
/-!
DEFINITION. The operations of the block: one constructor of `Instr` per row of
spec/opcode_table.json. The first five are what a command decodes to; the others are the internal
operations of spec/30_encoding.md R79, which have a rule but no command encoding.
-/

namespace Sys2Proof

/-- One transaction on the command port: a command word and a payload (R65). -/
structure Command where
  cmd : Word
  payload : List Byte
deriving DecidableEq, Repr

/-- Which of the block's two sponge states an internal operation works on: the streaming context
CTX_S (R23) or the scratch state SCR (R28). -/
inductive SReg where
  | ctx
  | scr
deriving DecidableEq, Repr

/-- The permutation backends, encoded PORTABLE = 0 and ACCEL = 1 (R27, R160). -/
inductive Backend where
  | portable
  | accel
deriving DecidableEq, Repr

/-- The operations of the block, one constructor per row of spec/opcode_table.json. -/
inductive Instr where
  /-- HRESET: restart the context (R130). -/
  | hreset
  /-- HWRITE: absorb a chunk of message (R137). -/
  | hwrite (p : List Byte)
  /-- HSUM: the digest of the message so far (R143). -/
  | hsum
  /-- HASH: the digest of the payload (R148). -/
  | hash (p : List Byte)
  /-- ILLEGAL: a command that names no operation, kept whole (R69, R176). -/
  | illegal (c : Command)
  /-- Theta (R86). -/
  | theta (r : SReg)
  /-- Rho (R88). -/
  | rho (r : SReg)
  /-- Pi (R89). -/
  | pi (r : SReg)
  /-- Chi (R91). -/
  | chi (r : SReg)
  /-- Iota with round index i (R93). -/
  | iota (r : SReg) (i : Fin 24)
  /-- Round i (R97). -/
  | round (r : SReg) (i : Fin 24)
  /-- KeccakF (R98). -/
  | keccakF (r : SReg)
  /-- AbsorbBlock of one block of 136 bytes (R110). -/
  | absorbBlock (r : SReg) (b : List Byte)
  /-- AbsorbBlocks of a whole number of blocks (R120). -/
  | absorbBlocks (r : SReg) (m : List Byte)
  /-- PadFinal of a tail of 0 to 135 bytes (R113). -/
  | padFinal (r : SReg) (t : List Byte)
  /-- Squeeze (R117). -/
  | squeeze (r : SReg)
  /-- Keccak256 of a byte sequence (R121). -/
  | keccak256 (m : List Byte)
  /-- LatchSel (R161). -/
  | latchSel
  /-- Select(BUILD_ACCEL, c) (R162). -/
  | select (build c : Bool)
deriving DecidableEq, Repr

/-- Whether an operation is what a command decodes to (R68, R69), as against an internal one (R79). -/
def Instr.isCommand : Instr → Bool
  | .hreset | .hwrite _ | .hsum | .hash _ | .illegal _ => true
  | .theta _ | .rho _ | .pi _ | .chi _ | .iota _ _ | .round _ _ | .keccakF _ => false
  | .absorbBlock _ _ | .absorbBlocks _ _ | .padFinal _ _ | .squeeze _ | .keccak256 _ => false
  | .latchSel | .select _ _ => false

end Sys2Proof
end

