-- ==== Sys2Proof/WellFormed.lean ====
section
/-!
DEFINITION. Which terms of `Instr` stand for an operation of the spec: the operand lengths the
rules give, and, for ILLEGAL, that the command it carries is one of those R176 lists. Everything
else (register names, round indexes 0..23) is already in the types.
-/

namespace Sys2Proof

/-- A command is legal when its 32-bit word is one of the four of R68 and, for HRESET and HSUM, its
payload is empty (R72). Written on the whole word, not on its fields, so that it is an independent
reading of R69. -/
def Command.isLegal (c : Command) : Bool :=
  c.cmd == 0x00000002 || c.cmd == 0x00000004 ||
    ((c.cmd == 0x00000001 || c.cmd == 0x00000003) && c.payload.isEmpty)

/-- The check a term of `Instr` must pass. -/
def Instr.wellFormed : Instr → Bool
  | .illegal c => !c.isLegal
  | .absorbBlock _ b => b.length == 136
  | .absorbBlocks _ m => m.length % 136 == 0
  | .padFinal _ t => decide (t.length ≤ 135)
  | .hreset | .hwrite _ | .hsum | .hash _ => true
  | .theta _ | .rho _ | .pi _ | .chi _ | .iota _ _ | .round _ _ | .keccakF _ => true
  | .squeeze _ | .keccak256 _ | .latchSel | .select _ _ => true

end Sys2Proof
end

