-- ==== Sys2Proof/Decode.lean ====
section
/-!
DEFINITION. The command encoding (spec/30_encoding.md): the fields of the command word, the decoder
of R69, the byte form of a transaction on a narrow transport (R66, R75), and the encoder written
from the same tables (R66, R68).
-/

namespace Sys2Proof

/-- OPC = CMD[7:0] (R66). -/
def opcField (w : Word) : BitVec 8 := w.extractLsb' 0 8

/-- RSVD = CMD[31:8] (R66). -/
def rsvdField (w : Word) : BitVec 24 := w.extractLsb' 8 24

/-- The decoder of R69, a total function of (CMD, P). -/
def decode (c : Command) : Instr :=
  if rsvdField c.cmd ≠ 0 then .illegal c
  else if opcField c.cmd = 0x01 then (if c.payload.length ≠ 0 then .illegal c else .hreset)
  else if opcField c.cmd = 0x02 then .hwrite c.payload
  else if opcField c.cmd = 0x03 then (if c.payload.length ≠ 0 then .illegal c else .hsum)
  else if opcField c.cmd = 0x04 then .hash c.payload
  else .illegal c

/-- Why a sequence of bytes holds no transaction. -/
inductive DecodeError where
  /-- Fewer than the 4 bytes of a command word (R75). Raised by `commandOfBytes` only: on the block's
  own port a command word is always whole (R65). Safe. -/
  | shortCommandWord (n : Nat)
deriving DecidableEq, Repr

/-- The command word whose byte 0 is `b0`: CMD is sent least significant byte first (R66). -/
def wordOfBytes (b0 b1 b2 b3 : Byte) : Word := b3 ++ b2 ++ b1 ++ b0

/-- Byte k of a command word (R66). -/
def wordByte (w : Word) (k : Nat) : Byte := w.extractLsb' (8 * k) 8

/-- The command a framed transaction carries: 4 bytes of CMD, then the payload (R66, R75). -/
def commandOfBytes : List Byte → Except DecodeError Command
  | b0 :: b1 :: b2 :: b3 :: p => .ok ⟨wordOfBytes b0 b1 b2 b3, p⟩
  | bs => .error (.shortCommandWord bs.length)

/-- The decoder on bytes: total, rejecting by name what is no transaction. -/
def decodeBytes (bs : List Byte) : Except DecodeError Instr := (commandOfBytes bs).map decode

/-- The bytes of a transaction, in the order a narrow transport sends them (R66, R75). -/
def commandBytes (c : Command) : List Byte :=
  [wordByte c.cmd 0, wordByte c.cmd 1, wordByte c.cmd 2, wordByte c.cmd 3] ++ c.payload

/-- The command of an operation (R66, R68). The internal operations have no encoding (R79). -/
def encode : Instr → Option Command
  | .hreset => some ⟨0x00000001, []⟩
  | .hwrite p => some ⟨0x00000002, p⟩
  | .hsum => some ⟨0x00000003, []⟩
  | .hash p => some ⟨0x00000004, p⟩
  | .illegal c => some c
  | .theta _ | .rho _ | .pi _ | .chi _ | .iota _ _ | .round _ _ | .keccakF _ => none
  | .absorbBlock _ _ | .absorbBlocks _ _ | .padFinal _ _ | .squeeze _ | .keccak256 _ => none
  | .latchSel | .select _ _ => none

/-- The bytes of the transaction that carries an operation. -/
def encodeBytes (i : Instr) : Option (List Byte) := (encode i).map commandBytes

/-- The bytes of a table word of `nbits` bits, least significant byte first, filled with zeros up
to one whole command word. -/
def tableBytes (nbits w : Nat) : List Byte :=
  (List.range (max 4 (nbits / 8))).map fun k => BitVec.ofNat 8 ((w % 2 ^ nbits) >>> (8 * k))

/-- The transaction of a table word: its first 32 bits are CMD and whole bytes after them are
payload, so a 32-bit row has the empty payload. -/
def tableCommand (nbits w : Nat) : Command :=
  match commandOfBytes (tableBytes nbits w) with
  | .ok c => c
  | .error _ => ⟨0, []⟩

/-- What this decoder reads from a word of spec/opcode_table.json. -/
def decodeTableWord (nbits w : Nat) : Option Instr := (decodeBytes (tableBytes nbits w)).toOption

end Sys2Proof
end

