-- ==== Sys2Proof/Config.lean ====
section
/-!
DEFINITION. What one build of the block fixes, and the values the spec leaves open. None of them
has a body: whatever is proved holds for every choice.
-/

namespace Sys2Proof.Config

/-- `BUILD_ACCEL` (spec/00_scope.md R7): whether the block is built with an accelerated backend.
A parameter of the build (log entry 5). -/
opaque buildAccel : Bool

/-- FREE VALUE, log entry 2: what the scratch state SCR holds once an HSUM or HASH is over.
"Its value between commands is unspecified" (spec/10_state.md R28). -/
opaque freeScr : Nat → Sponge

/-- FREE VALUE, log entry 4: what sampling `cap_accel` gives when it was not held stable
from the release of `rst`.
"the sampled value may be either one" (spec/70_reset_and_hazards.md R204). -/
opaque freeCap : Nat → Bool

end Sys2Proof.Config
end

