-- ==== Sys2Proof/Machine/State.lean ====
section
/-!
DEFINITION. The state of the block as plain data: the registers of spec/10_state.md R33, the ports
of R34, and four fields of the model's own (`capStable`, `turns`, `ret`, `draws`), with the state
after power-on reset (R37, R200).
-/

namespace Sys2Proof.Machine

/-- The level of the input `cap_accel` (R8) as the block can meet it (R162, R204). -/
inductive CapLevel where
  /-- A clean logic 0. -/
  | zero
  /-- A clean logic 1. -/
  | one
  /-- Unknown (X). -/
  | unknown
  /-- High impedance (Z). -/
  | highZ
  /-- Not yet valid. -/
  | notValid
  /-- A level that moves, or that is not known: not held stable (requirement 2 of R204 broken). -/
  | unsettled
deriving DecidableEq, Repr

/-- A response: STATUS, 8 bits, and DIGEST, 32 bytes, D[0] first (R76). -/
structure Response where
  status : BitVec 8
  digest : Digest
deriving DecidableEq, Repr

/-- What an internal operation returns to the rule that runs it: Squeeze and Keccak256 a digest
(R117, R121), Select a backend (R162). -/
inductive Ret where
  | digest (d : Digest)
  | backend (b : Backend)
deriving DecidableEq, Repr

/-- Who moves next: the block, or the outside world at one of the ports of R34 (log entry 6). -/
inductive Turn where
  /-- The block: it accepts the oldest offered command if it can. -/
  | block
  /-- A host offers a command on the command port (R52). -/
  | offer (c : Command)
  /-- The host takes the pending response (92_eei_decisions.md D29). -/
  | take
  /-- The integrator drives `cap_accel` (R204). -/
  | drive (l : CapLevel)
  /-- `rst` is asserted between commands (R200). -/
  | assertRst
  /-- `rst` is asserted while the oldest offered command is in progress (R182). -/
  | abortRst
  /-- `rst` is released (R200). -/
  | releaseRst
deriving DecidableEq, Repr

/-- The state of the block. -/
structure State where
  /-- CTX_S, the sponge state of the streaming context (R23). -/
  ctxS : Sponge
  /-- BUF, the written and not yet absorbed message bytes; BUF_CNT is its length (R24, R26). -/
  buf : List Byte
  /-- SEL_VALID (R27). -/
  selValid : Bool
  /-- SEL (R27). -/
  sel : Backend
  /-- SCR, the scratch sponge state of HSUM and HASH (R28, R33). -/
  scr : Sponge
  /-- The command port: the commands offered and not yet accepted, oldest first; those are held
  by back-pressure (R34, R52). -/
  cmdPort : List Command
  /-- The response port: the response not yet taken (R34, R76, D29). -/
  respPort : Option Response
  /-- The input `cap_accel` (R8, R34). -/
  capAccel : CapLevel
  /-- MODEL'S OWN: `cap_accel` has not been driven to another level since `rst` was last released,
  which is what requirement 2 of R204 asks of the integrator (log entry 4). -/
  capStable : Bool
  /-- The input `rst` (R34, R200). -/
  rst : Bool
  /-- MODEL'S OWN: whose move comes next, oldest first (log entry 6). -/
  turns : List Turn
  /-- MODEL'S OWN: what the last internal operation returned (log entry 7). No command touches it. -/
  ret : Option Ret
  /-- MODEL'S OWN: how many free values have been drawn (log entries 2 and 4). -/
  draws : Nat
deriving DecidableEq, Repr

/-- The phases of the streaming hasher between commands (R129). -/
inductive Phase where
  | empty
  | partly
deriving DecidableEq, Repr

/-- BUF_CNT, an 8-bit register (R25): the length of BUF, so it is stored once (R14, R26). -/
def State.bufCnt (s : State) : BitVec 8 := BitVec.ofNat 8 s.buf.length

/-- The phase of the context: EMPTY when BUF_CNT = 0, else PARTIAL (R129). -/
def State.phase (s : State) : Phase := if s.buf.length = 0 then .empty else .partly

/-- Reasons for the machine to stop. No command raises one: the block's own exception,
IllegalCommand, is a response and not a fault (R176). -/
inductive Fault where
  /-- AbsorbBlock given other than 136 bytes. Raised by `execAbsorbBlock` only, where R110 gives no
  effect; no command runs AbsorbBlock so. Safe. -/
  | blockLength (n : Nat)
  /-- AbsorbBlocks given other than a whole number of blocks. Raised by `execAbsorbBlocks` only,
  where R120 gives no effect; no command runs AbsorbBlocks so. Safe. -/
  | blocksLength (n : Nat)
  /-- PadFinal given 136 bytes or more: "there is no n ≥ 136 case" (R113). Raised by
  `execPadFinal` only. Safe. -/
  | tailLength (n : Nat)
deriving DecidableEq, Repr

/-- Reasons for having no meaning. -/
inductive Refusal where
  /-- The operation has no meaning in this model. Raised by an arm of `exec` only; no arm does.
  Safe. -/
  | notModelled (mnemonic : String)
deriving DecidableEq, Repr

/-- The block right after power-on reset (R37, R200), with `rst` released, no command offered, no
response pending. SEL and SCR are unspecified there: PORTABLE and zero are the model's (log
entry 1). The level of `cap_accel` is not given either: it is left open (log entry 4). -/
def State.reset : State where
  ctxS := zeroSponge
  buf := []
  selValid := false
  sel := .portable
  scr := zeroSponge
  cmdPort := []
  respPort := none
  capAccel := .unsettled
  capStable := true
  rst := false
  turns := []
  ret := none
  draws := 0

end Sys2Proof.Machine
end

