-- ==== Sys2Proof/Machine/Flags.lean ====
section
/-!
DEFINITION. The block has no flags or condition codes (spec/10_state.md R32). The only outcome of a
command besides the digest is the STATUS byte of its response, which this file holds
(spec/30_encoding.md R76, spec/60_exceptions.md R178).
-/

namespace Sys2Proof.Machine

/-- STATUS 0x00, OK (R178). -/
def statusOk : BitVec 8 := 0x00

/-- STATUS 0x01, ILLEGAL (R178). -/
def statusIllegal : BitVec 8 := 0x01

/-- The response of a legal command that returns a digest (R77). -/
def digestResponse (d : Digest) : Response := ⟨statusOk, d⟩

/-- The response of HRESET and HWRITE: OK and 32 zero bytes (R77). -/
def okResponse : Response := ⟨statusOk, zeroDigest⟩

/-- The response of an illegal command: ILLEGAL and 32 zero bytes (R77, R176). -/
def illegalResponse : Response := ⟨statusIllegal, zeroDigest⟩

end Sys2Proof.Machine
end

