-- ==== Sys2Proof/Machine/Operands.lean ====
section
/-!
DEFINITION. The operand forms: sub-sequences of a payload, the little-endian byte order, the two
views of a sponge state, which sponge state an internal operation works on, and the sampling of
`cap_accel` (spec/00_scope.md R12, R13; spec/10_state.md R21; spec/43_dispatch.md R162).
-/

namespace Sys2Proof.Machine

/-- L[a..b), the sub-sequence of bytes a to b-1 (R12). -/
def slice (L : List Byte) (a b : Nat) : List Byte := (L.take b).drop a

/-- LE64(b0..b7): byte j has weight 2^(8j) (R12). -/
def le64 (b : Vector Byte 8) : Lane :=
  b[7] ++ b[6] ++ b[5] ++ b[4] ++ b[3] ++ b[2] ++ b[1] ++ b[0]

/-- Byte j of a lane, v[8j+7:8j] (R21). -/
def laneByte (v : Lane) (j : Nat) : Byte := v.extractLsb' (8 * j) 8

/-- rotl64(v, n) = ((v << n) | (v >> (64 - n))) mod 2^64, for n below 64 (R13). -/
def rotl64 (v : Lane) (n : Nat) : Lane := (v <<< n) ||| (v >>> (64 - n))

/-- The lane number x + 5y of lane (x,y) (R21). -/
def laneNumber (x y : Fin 5) : Fin 25 := ⟨x.val + 5 * y.val, by omega⟩

/-- A[x,y] (R14, R21). -/
def laneAt (A : Lanes) (x y : Fin 5) : Lane := A[laneNumber x y]

/-- The lane matrix whose lane (x,y) is `f x y`: how "for x, y in 0..4: A'[x,y] = ..." is written.
Every lane of the result is computed from the matrices `f` reads (R207). -/
def lanesOf (f : Fin 5 → Fin 5 → Lane) : Lanes :=
  Vector.ofFn fun w => f ⟨w.val % 5, by omega⟩ ⟨w.val / 5, by omega⟩

/-- lanes(S): lane number w is LE64 of state bytes 8w to 8w+7 (R21). -/
def lanes (S : Sponge) : Lanes :=
  Vector.ofFn fun w => le64 (Vector.ofFn fun j => S[8 * w.val + j.val])

/-- bytes(A): state byte 8w+j is byte j of lane number w (R21). -/
def spongeOf (A : Lanes) : Sponge :=
  Vector.ofFn fun i => laneByte A[i.val / 8] (i.val % 8)

/-- The sponge state an internal operation reads. -/
def State.sponge (s : State) : SReg → Sponge
  | .ctx => s.ctxS
  | .scr => s.scr

/-- Writing the sponge state an internal operation works on. -/
def State.setSponge (s : State) (r : SReg) (S : Sponge) : State :=
  match r with
  | .ctx => { s with ctxS := S }
  | .scr => { s with scr := S }

/-- sample(cap_accel): 1 only for a clean logic 1, "Any other value gives 0" (R162). If the input
was not driven to its level before `rst` was released and held until now, "the sampled value may be
either one" (R204), a free value whatever the level is. -/
def sampleCap (l : CapLevel) (stable : Bool) (n : Nat) : Bool :=
  if stable then
    match l with
    | .one => true
    | .unsettled => Config.freeCap n
    | .zero | .unknown | .highZ | .notValid => false
  else Config.freeCap n

end Sys2Proof.Machine
end

