-- ==== Sys2Proof/Machine/Permutation.lean ====
section
/-!
DEFINITION. The permutation Keccak-f[1600] (spec/40_permutation.md R85 to R101): the five steps, a
round, and the 24 rounds. There is one KeccakF, whichever backend runs it (R100).
-/

namespace Sys2Proof.Machine

/-- C[x], the parity of column x (R86). -/
def columnParity (A : Lanes) (x : Fin 5) : Lane :=
  laneAt A x 0 ^^^ laneAt A x 1 ^^^ laneAt A x 2 ^^^ laneAt A x 3 ^^^ laneAt A x 4

/-- Theta (R86). C and D are whole vectors of the input, and only C[x+1] is rotated
(90_conflicts.md C5). `x + 4` and `x + 1` are taken mod 5 by `Fin 5`. -/
def thetaStep (A : Lanes) : Lanes :=
  let C : Vector Lane 5 := Vector.ofFn (columnParity A)
  let D : Vector Lane 5 := Vector.ofFn fun x => C[x + 4] ^^^ rotl64 C[x + 1] 1
  lanesOf fun x y => laneAt A x y ^^^ D[x]

/-- The line of R87's table for row y: its offsets for x = 0, 1, 2, 3, 4. -/
def rhoLine (y : Fin 5) : Vector Nat 5 :=
  match y with
  | 0 => #v[0, 1, 62, 28, 27]
  | 1 => #v[36, 44, 6, 55, 20]
  | 2 => #v[3, 10, 43, 25, 39]
  | 3 => #v[41, 45, 15, 21, 8]
  | 4 => #v[18, 2, 61, 56, 14]

/-- r[x,y] (R87). -/
def rhoOffset (x y : Fin 5) : Nat := (rhoLine y)[x]

/-- Rho (R88). -/
def rhoStep (A : Lanes) : Lanes := lanesOf fun x y => rotl64 (laneAt A x y) (rhoOffset x y)

/-- Pi (R89). -/
def piStep (A : Lanes) : Lanes := lanesOf fun x y => laneAt A (x + 3 * y) x

/-- Chi (R91). Every term reads the input (R92). -/
def chiStep (A : Lanes) : Lanes :=
  lanesOf fun x y => laneAt A x y ^^^ (~~~(laneAt A (x + 1) y) &&& laneAt A (x + 2) y)

/-- The table of R94, line by line: line i holds RC[i] and RC[i+12]. -/
def constantLines : List (Lane × Lane) :=
   [(0x0000000000000001, 0x000000008000808B),
    (0x0000000000008082, 0x800000000000008B),
    (0x800000000000808A, 0x8000000000008089),
    (0x8000000080008000, 0x8000000000008003),
    (0x000000000000808B, 0x8000000000008002),
    (0x0000000080000001, 0x8000000000000080),
    (0x8000000080008081, 0x000000000000800A),
    (0x8000000000008009, 0x800000008000000A),
    (0x000000000000008A, 0x8000000080008081),
    (0x0000000000000088, 0x8000000000008080),
    (0x0000000080008009, 0x0000000080000001),
    (0x000000008000000A, 0x8000000080008008)]

/-- The round constants RC[0..23]: the left column of R94's table, and after it the right one. -/
def roundConstants : Vector Lane 24 :=
  ⟨(constantLines.map Prod.fst ++ constantLines.map Prod.snd).toArray, rfl⟩

/-- Iota with round index i (R93). -/
def iotaStep (i : Fin 24) (A : Lanes) : Lanes :=
  lanesOf fun x y => if x = 0 ∧ y = 0 then laneAt A 0 0 ^^^ roundConstants[i] else laneAt A x y

/-- Round(A, i): Theta, Rho, Pi, Chi, Iota in this order (R96, R97). -/
def roundStep (i : Fin 24) (A : Lanes) : Lanes :=
  iotaStep i (chiStep (piStep (rhoStep (thetaStep A))))

/-- The 24 rounds, i = 0 first (R98). -/
def allRounds (A : Lanes) : Lanes := (List.finRange 24).foldl (fun A i => roundStep i A) A

/-- KeccakF (R98). -/
def keccakF (S : Sponge) : Sponge := spongeOf (allRounds (lanes S))

/-- One round of the register of R95's `rc(t)`, eight bits wide. R is shifted left, and when a bit
comes out, 0x171 is XORed in (its top bit clears the one that came out). -/
def lfsrShift (R : BitVec 8) : BitVec 8 :=
  if R.getLsbD 7 then (R <<< 1) ^^^ 0x71 else R <<< 1

/-- rc(t), the output bit of the generator (R95). -/
def lfsrBit (t : Nat) : Bool :=
  if t % 255 = 0 then true else (Nat.repeat lfsrShift (t % 255) 0x01).getLsbD 0

/-- RC[i] as R95 derives it: bit 2^j - 1 is rc(j + 7i), for j = 0..6. -/
def lfsrConstant (i : Nat) : Lane :=
  (List.range 7).foldl (fun acc j =>
    acc ||| (if lfsrBit (j + 7 * i) then (1 : Lane) <<< (2 ^ j - 1) else 0)) 0

end Sys2Proof.Machine
end

