-- ==== Sys2Proof/Machine/SpongeEngine.lean ====
section
/-!
DEFINITION. The sponge engine (spec/41_sponge.md R110 to R123): absorption, the legacy pad, the
squeeze, and the whole function Keccak256. Absorption XORs byte by byte
(93_implementation_defined.md I3).
-/

namespace Sys2Proof.Machine

/-- S[i] <- S[i] ^ B[i] for every byte of B (R47, R110, R113). -/
def xorBytes (S : Sponge) (B : List Byte) : Sponge :=
  Vector.ofFn fun i => S[i] ^^^ B.getD i.val 0

/-- S[i] <- S[i] ^ v (R113). -/
def xorByteAt (S : Sponge) (i : Nat) (v : Byte) : Sponge :=
  Vector.ofFn fun k => if k.val = i then S[k] ^^^ v else S[k]

/-- AbsorbBlock (R110). -/
def absorbBlockInto (S : Sponge) (B : List Byte) : Sponge := keccakF (xorBytes S B)

/-- PadFinal before its KeccakF: the tail, then 0x01 at byte n, then 0x80 at byte 135 (R113). -/
def padTail (S : Sponge) (T : List Byte) : Sponge :=
  xorByteAt (xorByteAt (xorBytes S T) T.length 0x01) 135 0x80

/-- PadFinal (R113). -/
def padFinalInto (S : Sponge) (T : List Byte) : Sponge := keccakF (padTail S T)

/-- Squeeze: the first 32 bytes of the state (R117). -/
def squeezeFrom (S : Sponge) : Digest := Vector.ofFn fun j => S[j.val]

/-- AbsorbBlocks: the blocks of M in order (R120). -/
def absorbBlocksInto (S : Sponge) (M : List Byte) : Sponge :=
  (List.range (M.length / 136)).foldl
    (fun S j => absorbBlockInto S (slice M (136 * j) (136 * j + 136))) S

/-- Keccak256(M) (R121). -/
def keccak256Of (M : List Byte) : Digest :=
  let k := M.length / 136
  let S := absorbBlocksInto zeroSponge (slice M 0 (136 * k))
  squeezeFrom (padFinalInto S (slice M (136 * k) M.length))

end Sys2Proof.Machine
end

