-- ==== Sys2Proof/Machine/Ops.lean ====
section
/-!
DEFINITION. The shared operations on the state: giving the response, raising the block's one
exception, the dispatcher's latch, the scratch state, power-on reset, and driving `cap_accel`.
-/

namespace Sys2Proof.Machine

/-- resp(status, digest): the command's response is put on the response port (R14, R76). -/
def respond (r : Response) (s : State) : State := { s with respPort := some r }

/-- TAKING THE EXCEPTION. raise IllegalCommand(): the response is ILLEGAL with 32 zero bytes and
no state changes; nothing is recorded, no mode exists, there is no handler and no return from it
(R176, R180, R181). -/
def raiseIllegal (s : State) : State := respond illegalResponse s

/-- Select(BUILD_ACCEL, c) (R162). -/
def selectBackend (build c : Bool) : Backend := if build && c then .accel else .portable

/-- LatchSel: the one-time selection (R161). -/
def latchSel (s : State) : State :=
  if s.selValid then s
  else
    { s with
      sel := selectBackend Config.buildAccel (sampleCap s.capAccel s.capStable s.draws)
      selValid := true
      draws := s.draws + 1 }

/-- The end of a command that used the scratch state: what SCR then holds is unspecified (R28), a
free value (log entry 2). -/
def releaseScr (s : State) : State :=
  { s with scr := Config.freeScr s.draws, draws := s.draws + 1 }

/-- While `rst` is asserted, every piece of state takes its power-on value (R37, R200). The inputs
of the block (the offered commands, `cap_accel`, who moves next) are not its state. A change of
`cap_accel` before this reset no longer counts: R204 speaks of the time from the release of `rst`. -/
def powerOn (s : State) : State :=
  { State.reset with
    cmdPort := s.cmdPort, capAccel := s.capAccel, rst := true, turns := s.turns, draws := s.draws }

/-- The integrator drives `cap_accel` (R34). Before `rst` is released it may take any level; a change
after that breaks requirement 2 of R204. Driving the level it has is no change. -/
def driveCap (l : CapLevel) (s : State) : State :=
  { s with capAccel := l, capStable := s.capStable && (s.rst || decide (l = s.capAccel)) }

/-- An internal operation returns a value to the rule that runs it (R117, R121, R162). -/
def returnValue (v : Ret) (s : State) : State := { s with ret := some v }

/-- An internal operation that maps the lane matrix of one sponge state to a new one, in place
(R85). -/
def onLanes (r : SReg) (f : Lanes → Lanes) (s : State) : State :=
  s.setSponge r (spongeOf (f (lanes (s.sponge r))))

end Sys2Proof.Machine
end

