-- ==== Sys2Proof/Machine/Hasher.lean ====
section
/-!
DEFINITION. The meanings of what a command decodes to (spec/42_hasher.md R128 to R152,
spec/60_exceptions.md R176). A legal command runs LatchSel, then its own rule, then gives its
response (R128); every one of them completes.
-/

namespace Sys2Proof.Machine

/-- HRESET on the context (R130). -/
def resetContext (s : State) : State := { s with ctxS := zeroSponge, buf := [] }

/-- Step (a) of HWRITE: top up a non-empty buffer, and absorb it if it reaches 136 bytes (R137).
It gives CTX_S, BUF and the rest of the payload. -/
def topUp (S : Sponge) (buf p : List Byte) : Sponge × List Byte × List Byte :=
  if buf.length > 0 then
    let take := min (136 - buf.length) p.length
    let full := buf ++ slice p 0 take
    if full.length = 136 then (absorbBlockInto S full, [], p.drop take)
    else (S, full, p.drop take)
  else (S, buf, p)

/-- Step (b) of HWRITE: while at least 136 bytes are left, absorb 136 of them straight from the
payload (R137). It gives CTX_S and the remainder. The first argument bounds the number of passes;
the payload's length is always enough. -/
def absorbWhole : Nat → Sponge → List Byte → Sponge × List Byte
  | 0, S, p => (S, p)
  | n + 1, S, p =>
    if p.length ≥ 136 then absorbWhole n (absorbBlockInto S (slice p 0 136)) (p.drop 136)
    else (S, p)

/-- HWRITE on CTX_S and BUF: steps (a), (b) and (c) (R137). -/
def writeInto (S : Sponge) (buf p : List Byte) : Sponge × List Byte :=
  let (S1, buf1, p1) := topUp S buf p
  let (S2, p2) := absorbWhole p1.length S1 p1
  (S2, buf1 ++ p2)

/-- HWRITE on the context (R137). -/
def writeContext (p : List Byte) (s : State) : State :=
  { s with ctxS := (writeInto s.ctxS s.buf p).1, buf := (writeInto s.ctxS s.buf p).2 }

/-- What HSUM leaves in SCR before the squeeze: the pad and one KeccakF on a copy of CTX_S
(R143). -/
def hsumScratch (s : State) : Sponge := padFinalInto s.ctxS s.buf

/-- What HASH leaves in SCR before the squeeze (R148). -/
def hashScratch (p : List Byte) : Sponge :=
  let k := p.length / 136
  padFinalInto (absorbBlocksInto zeroSponge (slice p 0 (136 * k))) (slice p (136 * k) p.length)

/-- HRESET (R128, R130). -/
def execHreset (s : State) : Host.Outcome State Fault Refusal :=
  .next (respond okResponse (resetContext (latchSel s)))

/-- HWRITE (R128, R137). -/
def execHwrite (p : List Byte) (s : State) : Host.Outcome State Fault Refusal :=
  .next (respond okResponse (writeContext p (latchSel s)))

/-- HSUM (R128, R143): CTX_S and BUF are not written. -/
def execHsum (s : State) : Host.Outcome State Fault Refusal :=
  .next (respond (digestResponse (squeezeFrom (hsumScratch s))) (releaseScr (latchSel s)))

/-- HASH (R128, R148): the context is neither read nor written (R149). -/
def execHash (p : List Byte) (s : State) : Host.Outcome State Fault Refusal :=
  .next (respond (digestResponse (squeezeFrom (hashScratch p))) (releaseScr (latchSel s)))

/-- ILLEGAL (R128, R176): LatchSel does not run, the payload is discarded, no state changes. -/
def execIllegal (_c : Command) (s : State) : Host.Outcome State Fault Refusal :=
  .next (raiseIllegal s)

end Sys2Proof.Machine
end

