-- ==== Sys2Proof/Machine/Internal.lean ====
section
/-!
DEFINITION. The meanings of the internal operations (spec/30_encoding.md R79). No command decodes
to one; the commands run them. Here each acts on the sponge state its operand names, and what it
returns to the rule that runs it stands in `ret` (log entry 7). None gives a response.
-/

namespace Sys2Proof.Machine

/-- Theta (R86). -/
def execTheta (r : SReg) (s : State) : Host.Outcome State Fault Refusal :=
  .next (onLanes r thetaStep s)

/-- Rho (R88). -/
def execRho (r : SReg) (s : State) : Host.Outcome State Fault Refusal :=
  .next (onLanes r rhoStep s)

/-- Pi (R89). -/
def execPi (r : SReg) (s : State) : Host.Outcome State Fault Refusal :=
  .next (onLanes r piStep s)

/-- Chi (R91). -/
def execChi (r : SReg) (s : State) : Host.Outcome State Fault Refusal :=
  .next (onLanes r chiStep s)

/-- Iota (R93). -/
def execIota (r : SReg) (i : Fin 24) (s : State) : Host.Outcome State Fault Refusal :=
  .next (onLanes r (iotaStep i) s)

/-- Round (R97). -/
def execRound (r : SReg) (i : Fin 24) (s : State) : Host.Outcome State Fault Refusal :=
  .next (onLanes r (roundStep i) s)

/-- KeccakF (R98). -/
def execKeccakF (r : SReg) (s : State) : Host.Outcome State Fault Refusal :=
  .next (s.setSponge r (keccakF (s.sponge r)))

/-- AbsorbBlock (R110). -/
def execAbsorbBlock (r : SReg) (b : List Byte) (s : State) : Host.Outcome State Fault Refusal :=
  if b.length = 136 then .next (s.setSponge r (absorbBlockInto (s.sponge r) b))
  else .fault (.blockLength b.length)

/-- AbsorbBlocks (R120). -/
def execAbsorbBlocks (r : SReg) (m : List Byte) (s : State) : Host.Outcome State Fault Refusal :=
  if m.length % 136 = 0 then .next (s.setSponge r (absorbBlocksInto (s.sponge r) m))
  else .fault (.blocksLength m.length)

/-- PadFinal (R113). -/
def execPadFinal (r : SReg) (t : List Byte) (s : State) : Host.Outcome State Fault Refusal :=
  if t.length ≤ 135 then .next (s.setSponge r (padFinalInto (s.sponge r) t))
  else .fault (.tailLength t.length)

/-- Squeeze (R117): the state is read and not changed. -/
def execSqueeze (r : SReg) (s : State) : Host.Outcome State Fault Refusal :=
  .next (returnValue (.digest (squeezeFrom (s.sponge r))) s)

/-- Keccak256 (R121), on a state of its own. -/
def execKeccak256 (m : List Byte) (s : State) : Host.Outcome State Fault Refusal :=
  .next (returnValue (.digest (keccak256Of m)) s)

/-- LatchSel (R161). -/
def execLatchSel (s : State) : Host.Outcome State Fault Refusal :=
  .next (latchSel s)

/-- Select (R162): a function of its operands; LatchSel is what writes SEL. -/
def execSelect (build c : Bool) (s : State) : Host.Outcome State Fault Refusal :=
  .next (returnValue (.backend (selectBackend build c)) s)

end Sys2Proof.Machine
end

