-- ==== Sys2Proof/Machine/Dispatch.lean ====
section
/-! DEFINITION. One arm per constructor of `Instr`, each one call of its meaning. -/

namespace Sys2Proof.Machine

def exec (i : Instr) (s : State) : Host.Outcome State Fault Refusal :=
  match i with
  | .hreset => Sys2Proof.Machine.execHreset s
  | .hwrite p => Sys2Proof.Machine.execHwrite p s
  | .hsum => Sys2Proof.Machine.execHsum s
  | .hash p => Sys2Proof.Machine.execHash p s
  | .illegal c => Sys2Proof.Machine.execIllegal c s
  -- the internal operations (R79)
  | .theta r => Sys2Proof.Machine.execTheta r s
  | .rho r => Sys2Proof.Machine.execRho r s
  | .pi r => Sys2Proof.Machine.execPi r s
  | .chi r => Sys2Proof.Machine.execChi r s
  | .iota r k => Sys2Proof.Machine.execIota r k s
  | .round r k => Sys2Proof.Machine.execRound r k s
  | .keccakF r => Sys2Proof.Machine.execKeccakF r s
  | .absorbBlock r b => Sys2Proof.Machine.execAbsorbBlock r b s
  | .absorbBlocks r m => Sys2Proof.Machine.execAbsorbBlocks r m s
  | .padFinal r t => Sys2Proof.Machine.execPadFinal r t s
  | .squeeze r => Sys2Proof.Machine.execSqueeze r s
  | .keccak256 m => Sys2Proof.Machine.execKeccak256 m s
  | .latchSel => Sys2Proof.Machine.execLatchSel s
  | .select build c => Sys2Proof.Machine.execSelect build c s

end Sys2Proof.Machine
end

