-- ==== Sys2Proof/Machine/Ports.lean ====
section
/-!
DEFINITION. The ports of the block (spec/10_state.md R34): what the outside world does at them, and
which command the block accepts next (spec/20_memory.md R52, spec/70_reset_and_hazards.md R200).
-/

namespace Sys2Proof.Machine

/-- Who moves next. When nothing is scheduled, a host takes a pending response, and otherwise the
block moves (log entry 6): hosts take their responses (92_eei_decisions.md D29). -/
def nextTurn (s : State) : Turn × State :=
  match s.turns with
  | t :: ts => (t, { s with turns := ts })
  | [] => (if s.respPort.isSome then .take else .block, s)

/-- The command the block accepts on its turn: the oldest one offered, when `rst` is not asserted
and no response is pending (R52, R200, D29). Otherwise it is held, and not refused. -/
def nextCommand (s : State) : Option (Command × State) :=
  match s.rst, s.respPort, s.cmdPort with
  | false, none, c :: rest => some (c, { s with cmdPort := rest })
  | _, _, _ => none

/-- The block's turn when it accepts no command: its state is held (R190); while `rst` is asserted
every piece of state takes its power-on value (R200). -/
def waitTurn (s : State) : State := if s.rst then powerOn s else s

/-- The command in progress is abandoned: it is gone from the port, with no response (R182). -/
def abandonCommand (s : State) : State :=
  match nextCommand s with
  | some (_, s1) => s1
  | none => s

/-- What a move of the outside world does. -/
def outsideTurn (t : Turn) (s : State) : State :=
  match t with
  | .block => s
  | .offer c => { s with cmdPort := s.cmdPort ++ [c] }
  | .take => { s with respPort := none }
  | .drive l => driveCap l s
  | .assertRst => powerOn s
  | .abortRst => powerOn (abandonCommand s)
  | .releaseRst => { s with rst := false }

/-- A state in which the block's next move is to accept this command: the command stands first at
the port, the response port is free and `rst` is not asserted. -/
def withCommand (c : Command) (s : State) : State :=
  { s with cmdPort := c :: s.cmdPort, respPort := none, rst := false, turns := .block :: s.turns }

end Sys2Proof.Machine
end

