-- ==== Sys2Proof/Machine/Step.lean ====
section
/-!
DEFINITION. One step of the machine: one move of the block or of the outside world. The block's
move decodes and runs one whole command, since commands are atomic (spec/20_memory.md R52,
spec/42_hasher.md R128).
-/

namespace Sys2Proof.Machine

/-- The block's turn: accept and run the next command, or wait. -/
def blockTurn (s : State) : Host.Outcome State Fault Refusal :=
  match nextCommand s with
  | some (c, s1) => exec (decode c) s1
  | none => .next (waitTurn s)

/-- One step. -/
def step (s : State) : Host.Outcome State Fault Refusal :=
  match nextTurn s with
  | (.block, s1) => blockTurn s1
  | (t, s1) => .next (outsideTurn t s1)

/-- The state with a command of the opcode table as the next one the block accepts. -/
def State.withFetchWord (s : State) (nbits w : Nat) : State :=
  withCommand (tableCommand nbits w) s

end Sys2Proof.Machine
end

