-- ==== Sys2Proof/Machine/Work.lean ====
section
/-!
DEFINITION. The work of a command, counted in KeccakF calls (spec/70_reset_and_hazards.md R209).
The same rules again, over a sponge state with a count beside it that every KeccakF advances by
one. No meaning reads it: "No rule of the model depends on this table" (R209).
-/

namespace Sys2Proof.Machine

/-- A sponge state, and how many KeccakF calls have made it. -/
abbrev Counted := Sponge × Nat

/-- KeccakF, counted (R98). -/
def countedKeccakF (X : Counted) : Counted := (keccakF X.1, X.2 + 1)

/-- AbsorbBlock, counted (R110). -/
def countedAbsorbBlock (X : Counted) (B : List Byte) : Counted :=
  countedKeccakF (xorBytes X.1 B, X.2)

/-- AbsorbBlocks, counted (R120). -/
def countedAbsorbBlocks (X : Counted) (M : List Byte) : Counted :=
  (List.range (M.length / 136)).foldl
    (fun X j => countedAbsorbBlock X (slice M (136 * j) (136 * j + 136))) X

/-- PadFinal, counted (R113). -/
def countedPadFinal (X : Counted) (T : List Byte) : Counted :=
  countedKeccakF (padTail X.1 T, X.2)

/-- Keccak256, counted: the state before the squeeze (R121). -/
def countedKeccak256 (M : List Byte) : Counted :=
  let k := M.length / 136
  countedPadFinal (countedAbsorbBlocks (zeroSponge, 0) (slice M 0 (136 * k)))
    (slice M (136 * k) M.length)

/-- Step (a) of HWRITE, counted (R137). -/
def countedTopUp (X : Counted) (buf p : List Byte) : Counted × List Byte × List Byte :=
  if buf.length > 0 then
    let take := min (136 - buf.length) p.length
    let full := buf ++ slice p 0 take
    if full.length = 136 then (countedAbsorbBlock X full, [], p.drop take)
    else (X, full, p.drop take)
  else (X, buf, p)

/-- Step (b) of HWRITE, counted (R137). -/
def countedAbsorbWhole : Nat → Counted → List Byte → Counted × List Byte
  | 0, X, p => (X, p)
  | n + 1, X, p =>
    if p.length ≥ 136 then
      countedAbsorbWhole n (countedAbsorbBlock X (slice p 0 136)) (p.drop 136)
    else (X, p)

/-- HWRITE, counted (R137). -/
def countedWrite (X : Counted) (buf p : List Byte) : Counted × List Byte :=
  let (X1, buf1, p1) := countedTopUp X buf p
  let (X2, p2) := countedAbsorbWhole p1.length X1 p1
  (X2, buf1 ++ p2)

/-- HSUM, counted: the scratch state before the squeeze (R143). -/
def countedHsum (s : State) : Counted := countedPadFinal (s.ctxS, 0) s.buf

end Sys2Proof.Machine
end

