-- ==== Sys2Proof/Machine/Run.lean ====
section
/-!
DEFINITION. Sequences of operations: running several in a row, and the responses a sequence of
commands returns (spec/20_memory.md R56). Used in statements; no step runs through it.
-/

namespace Sys2Proof.Machine

/-- Running operations one after the other, stopping at the first fault or refusal. -/
def execAll : List Instr → State → Host.Outcome State Fault Refusal
  | [], s => .next s
  | i :: is, s =>
    match exec i s with
    | .next t => execAll is t
    | .fault f => .fault f
    | .refused r => .refused r

/-- The responses that accepted commands return, in acceptance order (R56, R76). -/
def responses : List Command → State → List (Option Response)
  | [], _ => []
  | c :: cs, s =>
    match exec (decode c) s with
    | .next t => t.respPort :: responses cs t
    | .fault _ => []
    | .refused _ => []

end Sys2Proof.Machine
end

