-- ==== Sys2Proof/Safety.lean ====
section
/-!
DEFINITION. The terms the statements use: the invariants of the block, the message a context
holds, what a step accepts, and when two states are the same to a host.
-/

namespace Sys2Proof.Machine

/-- The context holds the message M: R36's two equations. -/
def HoldsMessage (s : State) (M : List Byte) : Prop :=
  s.buf = slice M (136 * (M.length / 136)) M.length ∧
    s.ctxS = absorbBlocksInto zeroSponge (slice M 0 (136 * (M.length / 136)))

/-- The invariant between steps: BUF_CNT is a legal value (R24, R25); SEL is ACCEL only in a build
that has it (R33); a pending response has one of the two STATUS values, and an ILLEGAL one has a
zero digest (R76, R178); while `rst` is asserted the state has its power-on values and no response
is pending (R200), and no change of `cap_accel` counts yet (R204). -/
structure Inv (s : State) : Prop where
  count_legal : s.buf.length ≤ 135
  sel_built : s.sel = .accel → Config.buildAccel = true
  response_legal : ∀ r, s.respPort = some r →
    r.status = 0x00 ∨ (r.status = 0x01 ∧ ∀ j : Fin 32, r.digest[j] = 0x00)
  reset_held : s.rst = true →
    (∀ i : Fin 200, s.ctxS[i] = 0x00) ∧ s.buf = [] ∧ s.selValid = false ∧ s.respPort = none ∧
      s.capStable = true

/-- The command that this step accepts, if it accepts one. -/
def acceptedNow (s : State) : Option Command :=
  match nextTurn s with
  | (.block, s1) => (nextCommand s1).map Prod.fst
  | _ => none

/-- Several steps in a row, stopping at the first fault or refusal. -/
def steps : Nat → State → Host.Outcome State Fault Refusal
  | 0, s => .next s
  | n + 1, s =>
    match step s with
    | .next t => steps n t
    | .fault f => .fault f
    | .refused r => .refused r

/-- Whether this step is a power-on reset: `rst` is asserted, or a block's turn comes while it is. -/
def resetsNow (s : State) : Bool :=
  match nextTurn s with
  | (.assertRst, _) => true
  | (.abortRst, _) => true
  | (.block, s1) => s1.rst
  | _ => false

/-- The message after this step of a context that held M: an accepted HWRITE appends its payload,
an accepted HRESET and a power-on reset leave the empty message, and everything else leaves M (R36,
R129). -/
def messageAfter (s : State) (M : List Byte) : List Byte :=
  if resetsNow s then []
  else
    match (acceptedNow s).map decode with
    | some .hreset => []
    | some (.hwrite p) => M ++ p
    | _ => M

/-- An operation on the sponge state `r` changed only that sponge state. -/
def ChangesOnly (r : SReg) (s t : State) : Prop :=
  match r with
  | .ctx => t = { s with ctxS := t.ctxS }
  | .scr => t = { s with scr := t.scr }

/-- What the start of a legal command does to the dispatcher: nothing once SEL_VALID is set, and
else the selection from the build and the sampled `cap_accel` (R128, R161). -/
def Latched (s u : State) : Prop :=
  (s.selValid = true ∧ u = s) ∨
    (s.selValid = false ∧
      u = { s with
        sel := selectBackend Config.buildAccel (sampleCap s.capAccel s.capStable s.draws)
        selValid := true
        draws := s.draws + 1 })

/-- A move of the outside world without the level it drives. -/
def Turn.blind : Turn → Turn
  | .drive _ => .drive .zero
  | .block => .block
  | .offer c => .offer c
  | .take => .take
  | .assertRst => .assertRst
  | .abortRst => .abortRst
  | .releaseRst => .releaseRst

/-- Two states that agree on everything but the dispatcher's registers, the scratch state, the
level of `cap_accel` now and later, and the model's own values. -/
def SameToHost (s u : State) : Prop :=
  s.ctxS = u.ctxS ∧ s.buf = u.buf ∧ s.cmdPort = u.cmdPort ∧ s.respPort = u.respPort ∧
    s.rst = u.rst ∧ s.turns.map Turn.blind = u.turns.map Turn.blind

end Sys2Proof.Machine
end

