-- ==== Sys2Proof/Certificates/Slice0/Obligations.lean ====
section
/-!
DEFINITION. The statements for the provers. Each docstring names the rules of spec/ it formalises;
OBLIGATIONS.json lists them with their titles. The block has no memory, no register file, no
program counter and no flags (R30 to R33, R45), so a frame is the rest of `State`: the statements
give the next state as a record update, or by `ChangesOnly`, which fixes every other field.
-/

open Sys2Proof Sys2Proof.Machine

/-! ## Encoding -/

/-- R78, the worked encodings. -/
def Obligations.WorkedEncodingsDecode : Prop :=
  decode ⟨0x00000001, []⟩ = .hreset ∧
  commandBytes ⟨0x00000001, []⟩ = [0x01, 0x00, 0x00, 0x00] ∧
  decode ⟨0x00000002, [0x61, 0x62, 0x63]⟩ = .hwrite [0x61, 0x62, 0x63] ∧
  commandBytes ⟨0x00000002, [0x61, 0x62, 0x63]⟩ = [0x02, 0x00, 0x00, 0x00, 0x61, 0x62, 0x63] ∧
  decode ⟨0x00000003, []⟩ = .hsum ∧
  decode ⟨0x00000004, []⟩ = .hash [] ∧
  rsvdField 0x00000103 = 0x000001 ∧ opcField 0x00000103 = 0x03 ∧
  (∀ p, decode ⟨0x00000103, p⟩ = .illegal ⟨0x00000103, p⟩) ∧
  (∀ p, decode ⟨0x00000000, p⟩ = .illegal ⟨0x00000000, p⟩)

/-- R69, the decoder, for every RSVD, OPC and payload; and R66, every command word is one RSVD and
one OPC. -/
def Obligations.DecoderFollowsOpcodeMap : Prop :=
  (∀ (rsvd : BitVec 24) (opc : BitVec 8) (p : List Byte),
    (rsvd ≠ 0 → decode ⟨rsvd ++ opc, p⟩ = .illegal ⟨rsvd ++ opc, p⟩) ∧
    (rsvd = 0 →
      (opc = 0x01 → decode ⟨rsvd ++ opc, p⟩ =
        if p.length ≠ 0 then .illegal ⟨rsvd ++ opc, p⟩ else .hreset) ∧
      (opc = 0x02 → decode ⟨rsvd ++ opc, p⟩ = .hwrite p) ∧
      (opc = 0x03 → decode ⟨rsvd ++ opc, p⟩ =
        if p.length ≠ 0 then .illegal ⟨rsvd ++ opc, p⟩ else .hsum) ∧
      (opc = 0x04 → decode ⟨rsvd ++ opc, p⟩ = .hash p) ∧
      (opc = 0x00 ∨ 0x05 ≤ opc.toNat → decode ⟨rsvd ++ opc, p⟩ = .illegal ⟨rsvd ++ opc, p⟩))) ∧
  (∀ w : Word, ∃ (rsvd : BitVec 24) (opc : BitVec 8), w = rsvd ++ opc)

/-- R70, R71, R72: a reserved opcode, a non-zero RSVD, and a payload on HRESET or HSUM end with
STATUS = ILLEGAL and change no state; HWRITE and HASH have no illegal payload. -/
def Obligations.IllegalCommandsChangeNothing : Prop :=
  ∀ (s : State) (w : Word) (p : List Byte),
    (w.toNat < 2 ^ 8 → w.toNat = 0x00 ∨ 0x05 ≤ w.toNat →
      exec (decode ⟨w, p⟩) s = .next { s with respPort := some ⟨0x01, Vector.replicate 32 0x00⟩ }) ∧
    (2 ^ 8 ≤ w.toNat →
      exec (decode ⟨w, p⟩) s = .next { s with respPort := some ⟨0x01, Vector.replicate 32 0x00⟩ }) ∧
    (w = 0x00000001 ∨ w = 0x00000003 → p ≠ [] →
      exec (decode ⟨w, p⟩) s = .next { s with respPort := some ⟨0x01, Vector.replicate 32 0x00⟩ }) ∧
    (w = 0x00000002 → decode ⟨w, p⟩ = .hwrite p) ∧
    (w = 0x00000004 → decode ⟨w, p⟩ = .hash p)

/-- Decode and encode agree on commands: every well-formed operation that has an encoding decodes
back to itself, every command is the encoding of the well-formed operation it decodes to, and the
internal operations have no encoding (R69, R79). -/
def Obligations.DecodeEncodeAgree : Prop :=
  (∀ (i : Instr) (c : Command), i.wellFormed = true → encode i = some c → decode c = i) ∧
  (∀ c : Command, encode (decode c) = some c ∧ (decode c).wellFormed = true ∧
    (decode c).isCommand = true) ∧
  (∀ i : Instr, (encode i).isSome = i.isCommand)

/-- Decode and encode agree on bytes (R66, R75): for every well-formed command operation and every
payload, the bytes sent decode to it, they are 4 and the payload's in number, and no two byte
sequences decode to one operation. -/
def Obligations.ByteTransactionRoundTrip : Prop :=
  (∀ i : Instr, i.wellFormed = true → i.isCommand = true →
    ∃ (c : Command) (bs : List Byte), encode i = some c ∧ encodeBytes i = some bs ∧
      bs.length = 4 + c.payload.length ∧ decodeBytes bs = .ok i) ∧
  (∀ (bs : List Byte) (i : Instr), decodeBytes bs = .ok i → encodeBytes i = some bs)

/-- Four bytes or more are a transaction, fewer are none (R75). The rejection is the model's choice
(DESIGN CHOICE, log entry 13). -/
def Obligations.ShortTransactionsAreRejected : Prop :=
  ∀ bs : List Byte,
    (bs.length < 4 → decodeBytes bs = .error (.shortCommandWord bs.length)) ∧
    (4 ≤ bs.length → ∃ i, decodeBytes bs = .ok i)

/-! ## The step and the ports -/

/-- When a command stands first at the port, the response port is free and `rst` is not asserted,
the block's step takes it off the port and is exec of what it decodes to (R52, R128). The block
moves when its turn is scheduled, or when nothing is (log entry 6). -/
def Obligations.StepRunsDecodedCommand : Prop :=
  ∀ (s : State) (c : Command) (rest : List Command),
    s.rst = false → s.respPort = none → s.cmdPort = c :: rest →
    (s.turns = [] → step s = exec (decode c) { s with cmdPort := rest }) ∧
    (∀ ts, s.turns = .block :: ts →
      step s = exec (decode c) { s with cmdPort := rest, turns := ts })

/-- A 32-bit table word placed by `withFetchWord` is what the next step runs, with the empty
payload. That a host's offer stands for a fetch is the model's choice (log entry 12). -/
def Obligations.FetchWordIsRunNext : Prop :=
  ∀ (s : State) (w : Word),
    decodeTableWord 32 w.toNat = some (decode ⟨w, []⟩) ∧
    step (s.withFetchWord 32 w.toNat) =
      exec (decode ⟨w, []⟩) { s with respPort := none, rst := false }

/-- R128, R175, R208: every step answers a next state; nothing the block can meet stops it. -/
def Obligations.EveryStepCompletes : Prop :=
  ∀ s : State, ∃ t, step s = .next t

/-- R52 and D29: a pending response stays until a host takes it or the block is reset, and a take
removes nothing but that response. -/
def Obligations.PendingResponseIsNeverDropped : Prop :=
  ∀ (s t : State) (r : Response), s.respPort = some r → step s = .next t →
    t.respPort = some r ∨
    ((s.turns = [] ∨ ∃ ts, s.turns = .take :: ts) ∧
      t = { s with respPort := none, turns := s.turns.tail }) ∨
    (resetsNow s = true ∧ t.respPort = none)

/-- R52: a command is accepted only from the head of the port, with the response port free, and
gives its one response; in any other step the offered commands stay in their order: they are held,
one more may be offered, and only a reset during a command abandons one (R182). -/
def Obligations.CommandsAreAcceptedInOrder : Prop :=
  ∀ s t : State, step s = .next t →
    (∃ c, acceptedNow s = some c ∧ s.cmdPort = c :: t.cmdPort ∧ s.respPort = none ∧
      s.rst = false ∧ ∃ r, t.respPort = some r) ∨
    (acceptedNow s = none ∧
      (t.cmdPort = s.cmdPort ∨
        (∃ c ts, s.turns = .offer c :: ts ∧ t.cmdPort = s.cmdPort ++ [c]) ∨
        (∃ c ts, s.turns = .abortRst :: ts ∧ s.rst = false ∧ s.respPort = none ∧
          s.cmdPort = c :: t.cmdPort)))

/-- What the outside world's moves do: offering, taking, driving `cap_accel` and releasing `rst`
each change one port and nothing else (R34, R52, R200, R204). The moves are the model's (log
entries 6 and 14), and so is the record that a drive after the release of `rst` which changes the
level leaves beside it (log entry 4). -/
def Obligations.OutsideMovesChangeOnePort : Prop :=
  ∀ (s : State) (ts : List Turn),
    (∀ c, s.turns = .offer c :: ts →
      step s = .next { s with cmdPort := s.cmdPort ++ [c], turns := ts }) ∧
    (s.turns = .take :: ts → step s = .next { s with respPort := none, turns := ts }) ∧
    (∀ l, s.turns = .drive l :: ts → step s = .next { s with
        capAccel := l
        capStable := s.capStable && (s.rst || decide (l = s.capAccel))
        turns := ts }) ∧
    (s.turns = .releaseRst :: ts → step s = .next { s with rst := false, turns := ts })

/-! ## Reset and the invariants -/

/-- R37, R200: CTX_S is 200 zero bytes, BUF is empty, BUF_CNT and SEL_VALID are 0, no response is
pending, and `rst` is released. -/
def Obligations.ResetStateValues : Prop :=
  (∀ i : Fin 200, State.reset.ctxS[i] = 0x00) ∧ State.reset.buf = [] ∧
  State.reset.bufCnt = 0 ∧ State.reset.selValid = false ∧ State.reset.respPort = none ∧
  State.reset.rst = false

/-- R200: while `rst` is asserted every piece of state takes its power-on value, and the state
holds its power-on values until it is released. That the inputs of the block stay as they are is
the model's choice (log entry 14). What SEL and SCR hold is not said (log entry 1). -/
def Obligations.PowerOnResetClearsTheBlock : Prop :=
  ∀ (s : State) (ts : List Turn),
    s.turns = .assertRst :: ts ∨ (s.rst = true ∧ s.turns = .block :: ts) →
    ∃ t, step s = .next t ∧
      (∀ i : Fin 200, t.ctxS[i] = 0x00) ∧ t.buf = [] ∧ t.bufCnt = 0 ∧ t.selValid = false ∧
      t.respPort = none ∧ t.rst = true ∧
      t.cmdPort = s.cmdPort ∧ t.capAccel = s.capAccel ∧ t.turns = ts

/-- R182: a reset during a command abandons it with no response, and leaves what a reset leaves
when the command was never offered. The reset in progress is a move of the model's (log entry
14). -/
def Obligations.ResetDuringCommandAbandonsIt : Prop :=
  ∀ (s : State) (c : Command) (rest : List Command) (ts : List Turn),
    s.rst = false → s.respPort = none → s.cmdPort = c :: rest → s.turns = .abortRst :: ts →
    ∃ t, step s = .next t ∧
      step { s with cmdPort := rest, turns := .assertRst :: ts } = .next t ∧
      (∀ i : Fin 200, t.ctxS[i] = 0x00) ∧ t.buf = [] ∧ t.selValid = false ∧
      t.respPort = none ∧ t.cmdPort = rest

/-- The invariant holds after reset, and the context then holds the empty message. -/
def Obligations.ResetMeetsTheInvariant : Prop :=
  Inv State.reset ∧ HoldsMessage State.reset []

/-- Every step keeps the invariant, from every state that meets it (R24, R25, R33, R76, R200). -/
def Obligations.EveryStepKeepsTheInvariant : Prop :=
  ∀ s t : State, Inv s → step s = .next t → Inv t

/-- R36: between commands BUF and CTX_S are what the message gives, whatever the chunks were, from
every state and along every move. -/
def Obligations.EveryStepKeepsTheMessage : Prop :=
  ∀ (s t : State) (M : List Byte), HoldsMessage s M → step s = .next t →
    HoldsMessage t (messageAfter s M)

/-- R25: the 8-bit BUF_CNT is the length of BUF in every state the invariant allows. -/
def Obligations.BufferCountFitsItsRegister : Prop :=
  ∀ s : State, Inv s → s.bufCnt.toNat = s.buf.length ∧ s.bufCnt.toNat ≤ 135

/-- R23: a step leaves CTX_S, or zeroes it (HRESET, reset), or absorbs full blocks into it (an
accepted HWRITE), and nothing else. -/
def Obligations.ContextHasTwoWriters : Prop :=
  ∀ s t : State, Inv s → step s = .next t →
    t.ctxS = s.ctxS ∨
    ((∀ i : Fin 200, t.ctxS[i] = 0x00) ∧
      (resetsNow s = true ∨ (acceptedNow s).map decode = some .hreset)) ∨
    (∃ p blocks, (acceptedNow s).map decode = some (.hwrite p) ∧ blocks.length % 136 = 0 ∧
      blocks <+: s.buf ++ p ∧ t.ctxS = absorbBlocksInto s.ctxS blocks)

/-! ## The two views of a sponge state -/

/-- R21: byte j of lane (x,y) is state byte 8(x+5y)+j, the lane is LE64 of its eight bytes, and the
two views hold the same state. The spec marks the placing of lane (x,y) as its own general
knowledge (G3; log entry 10, PRESUMED). -/
def Obligations.LaneAndByteViewsAgree : Prop :=
  (∀ (S : Sponge) (x y : Fin 5) (j : Fin 8),
    (laneAt (lanes S) x y).extractLsb' (8 * j.val) 8 = S[8 * (x.val + 5 * y.val) + j.val]) ∧
  (∀ (S : Sponge) (x y : Fin 5),
    (laneAt (lanes S) x y).toNat =
      ∑ j : Fin 8, S[8 * (x.val + 5 * y.val) + j.val].toNat * 2 ^ (8 * j.val)) ∧
  (∀ S : Sponge, spongeOf (lanes S) = S) ∧
  (∀ A : Lanes, lanes (spongeOf A) = A)

/-- R13: rotl64 moves bit i to bit (i + n) mod 64, and rotl64(v, 0) = v. -/
def Obligations.RotationMovesBits : Prop :=
  (∀ (v : Lane) (n i : Nat), n < 64 → i < 64 →
    (rotl64 v n).getLsbD ((i + n) % 64) = v.getLsbD i) ∧
  (∀ v : Lane, rotl64 v 0 = v)

/-! ## The permutation -/

/-- R86: Theta, lane by lane, and the two cases in which it is the identity. -/
def Obligations.ThetaMixesColumnParities : Prop :=
  ∀ (r : SReg) (s : State), ∃ t, exec (.theta r) s = .next t ∧ ChangesOnly r s t ∧
    (let A := laneAt (lanes (s.sponge r))
     let C : Fin 5 → Lane := fun x => A x 0 ^^^ A x 1 ^^^ A x 2 ^^^ A x 3 ^^^ A x 4
     (∀ x y, laneAt (lanes (t.sponge r)) x y = A x y ^^^ (C (x + 4) ^^^ rotl64 (C (x + 1)) 1)) ∧
     ((∀ x, C x = 0) → t = s) ∧
     ((∀ x, C x = BitVec.allOnes 64) → t = s))

/-- R87: the table of rho offsets, rows y, columns x; all distinct, at most 62, zero only at
(0,0). -/
def Obligations.RhoOffsetTable : Prop :=
  (List.finRange 5).map (fun y => (List.finRange 5).map fun x => rhoOffset x y) =
    [[0, 1, 62, 28, 27], [36, 44, 6, 55, 20], [3, 10, 43, 25, 39], [41, 45, 15, 21, 8],
     [18, 2, 61, 56, 14]] ∧
  (∀ x y x' y', rhoOffset x y = rhoOffset x' y' → x = x' ∧ y = y') ∧
  (∀ x y, rhoOffset x y ≤ 62) ∧
  (∀ x y, rhoOffset x y = 0 → x = 0 ∧ y = 0)

/-- R88: Rho rotates every lane by its offset; lane (0,0) and a lane of zeros or of ones stay as
they are. -/
def Obligations.RhoRotatesEveryLane : Prop :=
  ∀ (r : SReg) (s : State), ∃ t, exec (.rho r) s = .next t ∧ ChangesOnly r s t ∧
    (∀ x y, laneAt (lanes (t.sponge r)) x y =
      rotl64 (laneAt (lanes (s.sponge r)) x y) (rhoOffset x y)) ∧
    laneAt (lanes (t.sponge r)) 0 0 = laneAt (lanes (s.sponge r)) 0 0 ∧
    (∀ x y, rhoOffset x y < 64) ∧
    (∀ x y, laneAt (lanes (s.sponge r)) x y = 0 ∨
        laneAt (lanes (s.sponge r)) x y = BitVec.allOnes 64 →
      laneAt (lanes (t.sponge r)) x y = laneAt (lanes (s.sponge r)) x y)

/-- R89 and the table of R90: new lane (x,y) is old lane ((x+3y) mod 5, x); old lane (x,y) moves to
(y, (2x+3y) mod 5). -/
def Obligations.PiMovesEveryLane : Prop :=
  ∀ (r : SReg) (s : State), ∃ t, exec (.pi r) s = .next t ∧ ChangesOnly r s t ∧
    (let A := laneAt (lanes (s.sponge r))
     let B := laneAt (lanes (t.sponge r))
     (∀ x y, B x y = A (x + 3 * y) x) ∧
     (∀ x y, B y (2 * x + 3 * y) = A x y) ∧
     (List.finRange 5).map (fun y => (List.finRange 5).map fun x => B x y) =
       [[A 0 0, A 1 1, A 2 2, A 3 3, A 4 4], [A 3 0, A 4 1, A 0 2, A 1 3, A 2 4],
        [A 1 0, A 2 1, A 3 2, A 4 3, A 0 4], [A 4 0, A 0 1, A 1 2, A 2 3, A 3 4],
        [A 2 0, A 3 1, A 4 2, A 0 3, A 1 4]])

/-- R91, R92: Chi, from the lanes before the step; a row of zeros or of ones is unchanged. -/
def Obligations.ChiMixesRowsFromInput : Prop :=
  ∀ (r : SReg) (s : State), ∃ t, exec (.chi r) s = .next t ∧ ChangesOnly r s t ∧
    (let A := laneAt (lanes (s.sponge r))
     let B := laneAt (lanes (t.sponge r))
     (∀ x y, B x y = A x y ^^^ (~~~(A (x + 1) y) &&& A (x + 2) y)) ∧
     (∀ y, (∀ x, A x y = 0) → ∀ x, B x y = 0) ∧
     (∀ y, (∀ x, A x y = BitVec.allOnes 64) → ∀ x, B x y = BitVec.allOnes 64))

/-- R93: Iota changes lane (0,0) only, by RC[i], and always changes it. -/
def Obligations.IotaChangesLaneZero : Prop :=
  ∀ (r : SReg) (i : Fin 24) (s : State), ∃ t, exec (.iota r i) s = .next t ∧ ChangesOnly r s t ∧
    (let A := laneAt (lanes (s.sponge r))
     let B := laneAt (lanes (t.sponge r))
     B 0 0 = A 0 0 ^^^ roundConstants[i] ∧ B 0 0 ≠ A 0 0 ∧
     (∀ x y, ¬(x = 0 ∧ y = 0) → B x y = A x y))

/-- R95: the derivation by the LFSR yields the table of R94; and R94's remark on the bit
positions. The spec marks both as its own general knowledge (log entry 10). -/
def Obligations.RoundConstantsFollowTheLfsr : Prop :=
  (∀ i : Fin 24, lfsrConstant i.val = roundConstants[i]) ∧
  (∀ (i : Fin 24) (k : Fin 64), roundConstants[i].getLsbD k.val = true →
    k.val ∈ [0, 1, 3, 7, 15, 31, 63]) ∧
  (∀ i : Fin 24, roundConstants[i] ≠ 0)

/-- R96, R97: a round is Theta, Rho, Pi, Chi, Iota in this order; Round(zero, 0) has lane (0,0) = 1
and every other lane 0. The spec marks the order of the steps and RC[i] in round i as its own
general knowledge (G4, G5; log entry 10, PRESUMED). -/
def Obligations.RoundIsTheFiveStepsInOrder : Prop :=
  ∀ (r : SReg) (i : Fin 24) (s : State), ∃ t, exec (.round r i) s = .next t ∧ ChangesOnly r s t ∧
    execAll [.theta r, .rho r, .pi r, .chi r, .iota r i] s = .next t ∧
    (i = 0 → s.sponge r = Vector.replicate 200 0x00 →
      laneAt (lanes (t.sponge r)) 0 0 = 1 ∧
      ∀ x y, ¬(x = 0 ∧ y = 0) → laneAt (lanes (t.sponge r)) x y = 0)

/-- R98: KeccakF is rounds 0 to 23 in order, on the one sponge state and nothing else (R99). -/
def Obligations.KeccakFIsTwentyFourRounds : Prop :=
  ∀ (r : SReg) (s : State), ∃ t, exec (.keccakF r) s = .next t ∧ ChangesOnly r s t ∧
    execAll ((List.finRange 24).map (Instr.round r)) s = .next t

/-- R98, its example: KeccakF(zero) has A[0,0] = 0xF1258F7940E1DDE7, so the zero state does not map
to itself. -/
def Obligations.KeccakFOfTheZeroState : Prop :=
  laneAt (lanes (keccakF (Vector.replicate 200 0x00))) 0 0 = 0xF1258F7940E1DDE7 ∧
  keccakF (Vector.replicate 200 0x00) ≠ Vector.replicate 200 0x00

/-- R102: KeccakF is a bijection on 200-byte states. -/
def Obligations.KeccakFIsInvertible : Prop := Function.Bijective keccakF

/-! ## The sponge engine -/

/-- R110: one block is XORed into bytes 0 to 135, and the state is permuted. -/
def Obligations.AbsorbBlockXorsThenPermutes : Prop :=
  ∀ (r : SReg) (b : List Byte) (s : State) (hb : b.length = 136),
    ∃ (t : State) (X : Sponge), exec (.absorbBlock r b) s = .next t ∧ ChangesOnly r s t ∧
      (∀ i : Fin 200, X[i] = if h : i.val < 136 then (s.sponge r)[i] ^^^ b[i.val] else (s.sponge r)[i]) ∧
      t.sponge r = keccakF X ∧
      (b = List.replicate 136 0x00 → t.sponge r = keccakF (s.sponge r))

/-- R47, R51: the byte view and the word view of absorption give the same state: lane w, for w
below 17, is XORed with LE64 of block bytes 8w to 8w+7, and the other lanes are left. -/
def Obligations.AbsorptionByWordsAgrees : Prop :=
  ∀ (S : Sponge) (b : List Byte) (hb : b.length = 136) (w : Fin 25),
    (lanes (xorBytes S b))[w] =
      if h : w.val < 17 then
        (lanes S)[w] ^^^ le64 (Vector.ofFn fun j => b[8 * w.val + j.val])
      else (lanes S)[w]

/-- R111: neither a block nor a tail with its pad is XORed into bytes 136 to 199. -/
def Obligations.CapacityIsNeverXored : Prop :=
  ∀ (S : Sponge) (b : List Byte) (i : Fin 200), 136 ≤ i.val →
    (b.length ≤ 136 → (xorBytes S b)[i] = S[i]) ∧
    (b.length ≤ 135 → (padTail S b)[i] = S[i])

/-- R113, R114: the tail, 0x01 at byte n, 0x80 at byte 135, then one KeccakF; with n = 135 the two
pad bytes meet as 0x81. -/
def Obligations.PadFinalPadsThenPermutes : Prop :=
  ∀ (r : SReg) (T : List Byte) (s : State), T.length ≤ 135 →
    ∃ (t : State) (X : Sponge), exec (.padFinal r T) s = .next t ∧ ChangesOnly r s t ∧
      (∀ i : Fin 200, X[i] = (s.sponge r)[i] ^^^ (if h : i.val < T.length then T[i.val] else 0x00) ^^^
        (if i.val = T.length then 0x01 else 0x00) ^^^ (if i.val = 135 then 0x80 else 0x00)) ∧
      (T.length = 135 → X[135] = (s.sponge r)[135] ^^^ 0x81) ∧
      t.sponge r = keccakF X

/-- R120: the blocks are absorbed in order, no block leaves the state as it is, and absorbing two
whole numbers of blocks is absorbing their concatenation. -/
def Obligations.AbsorbBlocksInOrder : Prop :=
  (∀ (r : SReg) (M : List Byte) (s : State), M.length % 136 = 0 →
    ∃ t, exec (.absorbBlocks r M) s = .next t ∧ ChangesOnly r s t ∧
      execAll ((List.range (M.length / 136)).map fun j =>
        Instr.absorbBlock r (slice M (136 * j) (136 * j + 136))) s = .next t ∧
      (M = [] → t = s)) ∧
  (∀ (S : Sponge) (M N : List Byte), M.length % 136 = 0 → N.length % 136 = 0 →
    absorbBlocksInto S (M ++ N) = absorbBlocksInto (absorbBlocksInto S M) N)

/-- R117, R48: the digest is state bytes 0 to 31, which are the bytes of lanes (0,0) to (3,0), least
significant first; the state is read and not changed. The placing of the lanes is marked by the
spec as its own general knowledge (G3; log entry 10, PRESUMED). -/
def Obligations.SqueezeReadsThirtyTwoBytes : Prop :=
  ∀ (r : SReg) (s : State), ∃ d : Digest,
    exec (.squeeze r) s = .next { s with ret := some (.digest d) } ∧
    (∀ j : Fin 32, d[j] = (s.sponge r)[j.val]) ∧
    (∀ (x : Fin 4) (j : Fin 8), d[8 * x.val + j.val] =
      (laneAt (lanes (s.sponge r)) (x.castSucc) 0).extractLsb' (8 * j.val) 8)

/-- R121, R116: Keccak256(M) is absorbing the full blocks of M from the zero state, then one
PadFinal with the tail of |M| mod 136 bytes, then the squeeze. -/
def Obligations.Keccak256IsAbsorbPadSqueeze : Prop :=
  ∀ (M : List Byte) (s : State), ∃ d : Digest,
    exec (.keccak256 M) s = .next { s with ret := some (.digest d) } ∧
    (M.drop (136 * (M.length / 136))).length = M.length % 136 ∧
    ∃ t, execAll [.absorbBlocks .scr (M.take (136 * (M.length / 136))),
        .padFinal .scr (M.drop (136 * (M.length / 136))), .squeeze .scr]
        { s with scr := Vector.replicate 200 0x00 } = .next t ∧ t.ret = some (.digest d)

/-- Given operands outside the domain of R110, R113 or R120, the three sponge operations stop by
name: the model's choice (DESIGN CHOICE, log entry 8). -/
def Obligations.SpongeOperandsOutOfDomainStop : Prop :=
  ∀ (r : SReg) (b : List Byte) (s : State),
    (b.length ≠ 136 → exec (.absorbBlock r b) s = .fault (.blockLength b.length)) ∧
    (b.length % 136 ≠ 0 → exec (.absorbBlocks r b) s = .fault (.blocksLength b.length)) ∧
    (136 ≤ b.length → exec (.padFinal r b) s = .fault (.tailLength b.length))

/-! ## The commands -/

/-- R130: HRESET zeroes CTX_S and empties BUF, and nothing else beside the latch and the response;
doing it twice leaves the same state as doing it once. That an HRESET which is the first legal
command latches SEL is read from R128 and R161 (log entry 11, DEDUCED), and that SCR is kept from
R37 (log entry 3, DEDUCED). -/
def Obligations.HresetRestartsTheContext : Prop :=
  ∀ s : State, ∃ u t, Latched s u ∧ exec .hreset s = .next t ∧
    t = { u with
      ctxS := Vector.replicate 200 0x00
      buf := []
      respPort := some ⟨0x00, Vector.replicate 32 0x00⟩ } ∧
    t.bufCnt = 0 ∧ exec .hreset t = .next t

/-- R138, R139, R140: with T = BUF ++ P and k = ⌊|T|/136⌋, HWRITE absorbs the first k blocks of T
and keeps the rest, fewer than 136 bytes; an empty payload changes neither. -/
def Obligations.HwriteHasItsClosedForm : Prop :=
  ∀ (s : State) (p : List Byte), s.buf.length ≤ 135 →
    ∃ u t, Latched s u ∧ exec (.hwrite p) s = .next t ∧
      t = { u with
        ctxS := absorbBlocksInto s.ctxS ((s.buf ++ p).take (136 * ((s.buf ++ p).length / 136)))
        buf := (s.buf ++ p).drop (136 * ((s.buf ++ p).length / 136))
        respPort := some ⟨0x00, Vector.replicate 32 0x00⟩ } ∧
      t.buf.length ≤ 135 ∧
      (p = [] → t = { u with respPort := some ⟨0x00, Vector.replicate 32 0x00⟩ })

/-- R129: the phase after each command. -/
def Obligations.PhaseTransitions : Prop :=
  ∀ s : State, s.buf.length ≤ 135 →
    (∃ t, exec .hreset s = .next t ∧ t.phase = .empty) ∧
    (∀ p, ∃ t, exec (.hwrite p) s = .next t ∧
      t.phase = if (s.buf.length + p.length) % 136 = 0 then .empty else .partly) ∧
    (∃ t, exec .hsum s = .next t ∧ t.phase = s.phase) ∧
    (∀ p, ∃ t, exec (.hash p) s = .next t ∧ t.phase = s.phase) ∧
    (∀ c, ∃ t, exec (.illegal c) s = .next t ∧ t.phase = s.phase)

/-- R143, R144: HSUM answers the digest of PadFinal of a copy of CTX_S with BUF, and writes neither
CTX_S nor BUF. What SCR holds afterwards is free (R28): the statement says nothing of it. -/
def Obligations.HsumDigestsACopy : Prop :=
  ∀ s : State, s.buf.length ≤ 135 →
    ∃ u v f d, Latched s u ∧
      exec .hsum s = .next { u with
        scr := f, draws := u.draws + 1, respPort := some ⟨0x00, d⟩ } ∧
      execAll [.padFinal .scr s.buf, .squeeze .scr] { s with scr := s.ctxS } = .next v ∧
      v.ret = some (.digest d)

/-- R145: two HSUMs with no HWRITE or HRESET between them return the same digest; illegal commands,
HASHes and HSUMs between them change nothing. -/
def Obligations.HsumIsIdempotent : Prop :=
  ∀ (s : State) (W : List Command),
    (∀ c ∈ W, decode c = .hsum ∨ (∃ p, decode c = .hash p) ∨ decode c = .illegal c) →
    ∃ t u v, exec .hsum s = .next t ∧ execAll (W.map decode) t = .next u ∧
      exec .hsum u = .next v ∧ v.respPort = t.respPort ∧ v.ctxS = s.ctxS ∧ v.buf = s.buf

/-- R146: if M is the message written, HSUM returns Keccak256(M). -/
def Obligations.HsumReturnsDigestOfTheMessage : Prop :=
  ∀ (s : State) (M : List Byte), HoldsMessage s M →
    ∃ t, exec .hsum s = .next t ∧ t.respPort = some ⟨0x00, keccak256Of M⟩

/-- R148, R149: HASH answers Keccak256(P), and neither reads nor writes the context. What SCR holds
afterwards is free (R28). -/
def Obligations.HashIsKeccak256OfThePayload : Prop :=
  ∀ (s : State) (p : List Byte), ∃ u v f d, Latched s u ∧
    exec (.hash p) s = .next { u with
      scr := f, draws := u.draws + 1, respPort := some ⟨0x00, d⟩ } ∧
    exec (.keccak256 p) s = .next v ∧ v.ret = some (.digest d)

/-- R176: the one exception. No state changes, nothing is recorded, the response is ILLEGAL with 32
zero bytes, and the next command runs as it would have without it but for the response port. -/
def Obligations.IllegalCommandIsPrecise : Prop :=
  ∀ (s : State) (c : Command),
    exec (.illegal c) s = .next { s with respPort := some ⟨0x01, Vector.replicate 32 0x00⟩ } ∧
    ∀ d : Command, execAll [.illegal c, decode d] s = exec (decode d) s

/-- R76, R77, R178: every command gives exactly one response; its STATUS is OK for a legal command
and ILLEGAL for any other, and its DIGEST is zero but for HSUM and HASH. -/
def Obligations.EveryCommandGivesItsResponse : Prop :=
  ∀ (s : State) (c : Command), ∃ t r, exec (decode c) s = .next t ∧ t.respPort = some r ∧
    (c.isLegal = true → r.status = 0x00) ∧
    (c.isLegal = false → r.status = 0x01) ∧
    (c.isLegal = false ∨ c.cmd = 0x00000001 ∨ c.cmd = 0x00000002 →
      ∀ j : Fin 32, r.digest[j] = 0x00)

/-- R151: whatever the split of M into chunks, HRESET, the HWRITEs of the chunks and HSUM return
what HASH M returns, Keccak256(M) (R150 for one chunk). -/
def Obligations.DigestIgnoresChunkBoundaries : Prop :=
  ∀ (s : State) (chunks : List (List Byte)),
    ∃ t u, execAll (.hreset :: (chunks.map Instr.hwrite ++ [.hsum])) s = .next t ∧
      exec (.hash chunks.flatten) s = .next u ∧
      t.respPort = some ⟨0x00, keccak256Of chunks.flatten⟩ ∧ u.respPort = t.respPort

/-- The same through the command port, step by step: from any state with nothing scheduled, with
HRESET, one HWRITE per chunk and HSUM offered, hosts taking each response, the block answers
Keccak256 of the message and the port is empty (R36, R52, R69, R151). -/
def Obligations.StreamedDigestThroughThePort : Prop :=
  ∀ (s : State) (chunks : List (List Byte)),
    s.rst = false → s.respPort = none → s.turns = [] →
    s.cmdPort = ⟨0x00000001, []⟩ ::
      (chunks.map (fun p => ⟨0x00000002, p⟩) ++ [⟨0x00000003, []⟩]) →
    ∃ t : State, steps (2 * chunks.length + 3) s = .next t ∧
      t.respPort = some ⟨0x00, keccak256Of chunks.flatten⟩ ∧ t.cmdPort = []

/-- R152, R141: a write after a sum continues the message. -/
def Obligations.WriteAfterSumContinues : Prop :=
  ∀ (s : State) (A B : List Byte),
    ∃ t u, execAll [.hreset, .hwrite A, .hsum] s = .next t ∧
      execAll [.hwrite B, .hsum] t = .next u ∧
      t.respPort = some ⟨0x00, keccak256Of A⟩ ∧ u.respPort = some ⟨0x00, keccak256Of (A ++ B)⟩

/-- R131: after HRESET, from any state, every sequence of commands returns the responses it returns
straight after power-on reset. -/
def Obligations.HresetForgetsEarlierWrites : Prop :=
  ∀ (s : State) (W : List Command), ∃ t, exec .hreset s = .next t ∧
    responses W t = responses W State.reset

/-! ## The dispatcher -/

/-- R162: Select, all four rows, and the sampling of a `cap_accel` that was held as R204 asks: 1 only
for a clean logic 1. -/
def Obligations.SelectAndSampleTables : Prop :=
  (∀ (s : State) (build c : Bool),
    exec (.select build c) s = .next { s with
      ret := some (.backend (if build = true ∧ c = true then .accel else .portable)) }) ∧
  (∀ n, sampleCap .one true n = true ∧ sampleCap .zero true n = false ∧
    sampleCap .unknown true n = false ∧ sampleCap .highZ true n = false ∧
    sampleCap .notValid true n = false)

/-- R204, requirement 2. The first legal command after power-on selects by the level of `cap_accel`
when that was driven before `rst` was released and held since, and else by a free value, "either
one". A power-on reset starts the account anew; after it, a step keeps the input stable exactly when
`rst` is still asserted or the level does not change. The record, and that it stays broken when the
level comes back, are the model's (log entry 4). -/
def Obligations.UnstableCapSamplesEither : Prop :=
  (∀ (s : State) (c : Command), c.isLegal = true → s.selValid = false →
    ∃ t, exec (decode c) s = .next t ∧ t.selValid = true ∧
      (s.capStable = true → s.capAccel ≠ .unsettled →
        t.sel = if Config.buildAccel = true ∧ s.capAccel = .one then .accel else .portable) ∧
      (s.capStable = false ∨ s.capAccel = .unsettled →
        t.sel = if Config.buildAccel = true ∧ Config.freeCap s.draws = true then .accel
          else .portable)) ∧
  (∀ s t : State, step s = .next t →
    (resetsNow s = true → t.capStable = true) ∧
    (resetsNow s = false →
      t.capStable = (s.capStable && (s.rst || decide (t.capAccel = s.capAccel)))))

/-- R161: LatchSel selects when SEL_VALID = 0 and is idle after that; every legal command has run
it, and no illegal one does (R163, R176). -/
def Obligations.LatchSelActsOnce : Prop :=
  (∀ s : State, ∃ u, exec .latchSel s = .next u ∧ Latched s u ∧ exec .latchSel u = .next u) ∧
  (∀ (s : State) (c : Command), ∃ t, exec (decode c) s = .next t ∧
    (c.isLegal = true → t.selValid = true ∧ (s.selValid = true → t.sel = s.sel)) ∧
    (c.isLegal = false → t.selValid = s.selValid ∧ t.sel = s.sel))

/-- R164, R27: once SEL_VALID is set, no step but a power-on reset clears it or alters SEL,
whatever happens to `cap_accel`. -/
def Obligations.SelectionIsFixedUntilReset : Prop :=
  ∀ s t : State, s.selValid = true → step s = .next t →
    (resetsNow s = false → t.selValid = true ∧ t.sel = s.sel) ∧
    (resetsNow s = true → t.selValid = false)

/-- R35, R167: the dispatcher's registers, the scratch state and the level of `cap_accel` are not
observable: two states that agree on everything else take the same steps, with the same responses,
for any number of steps. -/
def Obligations.SelectionIsUnobservable : Prop :=
  (∀ s u t : State, SameToHost s u → step s = .next t →
    ∃ v, step u = .next v ∧ SameToHost t v) ∧
  (∀ (n : Nat) (s u : State), SameToHost s u →
    ∃ t v : State, steps n s = .next t ∧ steps n u = .next v ∧ SameToHost t v)

/-! ## Work -/

/-- R122, R142, R147, R209: how many KeccakF calls each command makes, counted along the rules
that give its result. -/
def Obligations.KeccakFCallsPerCommand : Prop :=
  (∀ (s : State) (p : List Byte), s.buf.length ≤ 135 →
    countedWrite (s.ctxS, 0) s.buf p =
      (((writeInto s.ctxS s.buf p).1, (s.buf.length + p.length) / 136),
        (writeInto s.ctxS s.buf p).2)) ∧
  (∀ s : State, countedHsum s = (hsumScratch s, 1)) ∧
  (∀ p : List Byte, countedKeccak256 p = (hashScratch p, p.length / 136 + 1))
end

