-- ==== Sys2Proof/Laws/State.lean ====
section
/-!
SUPPORT. One lemma per field per state update, so that no later proof unfolds a record update.
-/

namespace Sys2Proof.Machine

/-! ### Reading and writing a sponge state -/

@[simp] theorem sponge_ctx (s : State) : s.sponge .ctx = s.ctxS := rfl
@[simp] theorem sponge_scr (s : State) : s.sponge .scr = s.scr := rfl
@[simp] theorem setSponge_ctx (s : State) (S : Sponge) :
    s.setSponge .ctx S = { s with ctxS := S } := rfl
@[simp] theorem setSponge_scr (s : State) (S : Sponge) :
    s.setSponge .scr S = { s with scr := S } := rfl

@[simp] theorem sponge_setSponge (s : State) (r : SReg) (S : Sponge) :
    (s.setSponge r S).sponge r = S := by cases r <;> rfl
@[simp] theorem setSponge_sponge (s : State) (r : SReg) :
    s.setSponge r (s.sponge r) = s := by cases r <;> rfl
@[simp] theorem setSponge_setSponge (s : State) (r : SReg) (S T : Sponge) :
    (s.setSponge r S).setSponge r T = s.setSponge r T := by cases r <;> rfl
@[simp] theorem setSponge_buf (s : State) (r : SReg) (S : Sponge) :
    (s.setSponge r S).buf = s.buf := by cases r <;> rfl
@[simp] theorem setSponge_selValid (s : State) (r : SReg) (S : Sponge) :
    (s.setSponge r S).selValid = s.selValid := by cases r <;> rfl
@[simp] theorem setSponge_sel (s : State) (r : SReg) (S : Sponge) :
    (s.setSponge r S).sel = s.sel := by cases r <;> rfl
@[simp] theorem setSponge_cmdPort (s : State) (r : SReg) (S : Sponge) :
    (s.setSponge r S).cmdPort = s.cmdPort := by cases r <;> rfl
@[simp] theorem setSponge_respPort (s : State) (r : SReg) (S : Sponge) :
    (s.setSponge r S).respPort = s.respPort := by cases r <;> rfl
@[simp] theorem setSponge_capStable (s : State) (r : SReg) (S : Sponge) :
    (s.setSponge r S).capStable = s.capStable := by cases r <;> rfl
@[simp] theorem setSponge_ret (s : State) (r : SReg) (S : Sponge) :
    (s.setSponge r S).ret = s.ret := by cases r <;> rfl

/-! ### The response -/

@[simp] theorem respond_ctxS (r : Response) (s : State) : (respond r s).ctxS = s.ctxS := rfl
@[simp] theorem respond_buf (r : Response) (s : State) : (respond r s).buf = s.buf := rfl
@[simp] theorem respond_selValid (r : Response) (s : State) :
    (respond r s).selValid = s.selValid := rfl
@[simp] theorem respond_sel (r : Response) (s : State) : (respond r s).sel = s.sel := rfl
@[simp] theorem respond_scr (r : Response) (s : State) : (respond r s).scr = s.scr := rfl
@[simp] theorem respond_cmdPort (r : Response) (s : State) :
    (respond r s).cmdPort = s.cmdPort := rfl
@[simp] theorem respond_respPort (r : Response) (s : State) : (respond r s).respPort = some r := rfl
@[simp] theorem respond_capAccel (r : Response) (s : State) :
    (respond r s).capAccel = s.capAccel := rfl
@[simp] theorem respond_capStable (r : Response) (s : State) :
    (respond r s).capStable = s.capStable := rfl
@[simp] theorem respond_rst (r : Response) (s : State) : (respond r s).rst = s.rst := rfl
@[simp] theorem respond_turns (r : Response) (s : State) : (respond r s).turns = s.turns := rfl
@[simp] theorem respond_ret (r : Response) (s : State) : (respond r s).ret = s.ret := rfl
@[simp] theorem respond_draws (r : Response) (s : State) : (respond r s).draws = s.draws := rfl

@[simp] theorem raiseIllegal_eq (s : State) : raiseIllegal s = respond illegalResponse s := rfl

/-! ### The latch: it touches `selValid`, `sel` and `draws` only -/

@[simp] theorem latchSel_ctxS (s : State) : (latchSel s).ctxS = s.ctxS := by
  unfold latchSel; split <;> rfl
@[simp] theorem latchSel_buf (s : State) : (latchSel s).buf = s.buf := by
  unfold latchSel; split <;> rfl
@[simp] theorem latchSel_scr (s : State) : (latchSel s).scr = s.scr := by
  unfold latchSel; split <;> rfl
@[simp] theorem latchSel_cmdPort (s : State) : (latchSel s).cmdPort = s.cmdPort := by
  unfold latchSel; split <;> rfl
@[simp] theorem latchSel_respPort (s : State) : (latchSel s).respPort = s.respPort := by
  unfold latchSel; split <;> rfl
@[simp] theorem latchSel_capAccel (s : State) : (latchSel s).capAccel = s.capAccel := by
  unfold latchSel; split <;> rfl
@[simp] theorem latchSel_capStable (s : State) : (latchSel s).capStable = s.capStable := by
  unfold latchSel; split <;> rfl
@[simp] theorem latchSel_rst (s : State) : (latchSel s).rst = s.rst := by
  unfold latchSel; split <;> rfl
@[simp] theorem latchSel_turns (s : State) : (latchSel s).turns = s.turns := by
  unfold latchSel; split <;> rfl
@[simp] theorem latchSel_ret (s : State) : (latchSel s).ret = s.ret := by
  unfold latchSel; split <;> rfl
@[simp] theorem latchSel_selValid (s : State) : (latchSel s).selValid = true := by
  unfold latchSel; split <;> simp_all

/-! ### The scratch state -/

@[simp] theorem releaseScr_ctxS (s : State) : (releaseScr s).ctxS = s.ctxS := rfl
@[simp] theorem releaseScr_buf (s : State) : (releaseScr s).buf = s.buf := rfl
@[simp] theorem releaseScr_selValid (s : State) : (releaseScr s).selValid = s.selValid := rfl
@[simp] theorem releaseScr_sel (s : State) : (releaseScr s).sel = s.sel := rfl
@[simp] theorem releaseScr_cmdPort (s : State) : (releaseScr s).cmdPort = s.cmdPort := rfl
@[simp] theorem releaseScr_respPort (s : State) : (releaseScr s).respPort = s.respPort := rfl
@[simp] theorem releaseScr_capAccel (s : State) : (releaseScr s).capAccel = s.capAccel := rfl
@[simp] theorem releaseScr_capStable (s : State) : (releaseScr s).capStable = s.capStable := rfl
@[simp] theorem releaseScr_rst (s : State) : (releaseScr s).rst = s.rst := rfl
@[simp] theorem releaseScr_turns (s : State) : (releaseScr s).turns = s.turns := rfl
@[simp] theorem releaseScr_ret (s : State) : (releaseScr s).ret = s.ret := rfl

/-! ### The context -/

@[simp] theorem resetContext_ctxS (s : State) : (resetContext s).ctxS = zeroSponge := rfl
@[simp] theorem resetContext_buf (s : State) : (resetContext s).buf = [] := rfl
@[simp] theorem resetContext_selValid (s : State) : (resetContext s).selValid = s.selValid := rfl
@[simp] theorem resetContext_sel (s : State) : (resetContext s).sel = s.sel := rfl
@[simp] theorem resetContext_scr (s : State) : (resetContext s).scr = s.scr := rfl
@[simp] theorem resetContext_cmdPort (s : State) : (resetContext s).cmdPort = s.cmdPort := rfl
@[simp] theorem resetContext_respPort (s : State) : (resetContext s).respPort = s.respPort := rfl
@[simp] theorem resetContext_capAccel (s : State) : (resetContext s).capAccel = s.capAccel := rfl
@[simp] theorem resetContext_capStable (s : State) :
    (resetContext s).capStable = s.capStable := rfl
@[simp] theorem resetContext_rst (s : State) : (resetContext s).rst = s.rst := rfl
@[simp] theorem resetContext_turns (s : State) : (resetContext s).turns = s.turns := rfl
@[simp] theorem resetContext_ret (s : State) : (resetContext s).ret = s.ret := rfl
@[simp] theorem resetContext_draws (s : State) : (resetContext s).draws = s.draws := rfl

@[simp] theorem writeContext_ctxS (p : List Byte) (s : State) :
    (writeContext p s).ctxS = (writeInto s.ctxS s.buf p).1 := rfl
@[simp] theorem writeContext_buf (p : List Byte) (s : State) :
    (writeContext p s).buf = (writeInto s.ctxS s.buf p).2 := rfl
@[simp] theorem writeContext_selValid (p : List Byte) (s : State) :
    (writeContext p s).selValid = s.selValid := rfl
@[simp] theorem writeContext_sel (p : List Byte) (s : State) :
    (writeContext p s).sel = s.sel := rfl
@[simp] theorem writeContext_scr (p : List Byte) (s : State) :
    (writeContext p s).scr = s.scr := rfl
@[simp] theorem writeContext_cmdPort (p : List Byte) (s : State) :
    (writeContext p s).cmdPort = s.cmdPort := rfl
@[simp] theorem writeContext_respPort (p : List Byte) (s : State) :
    (writeContext p s).respPort = s.respPort := rfl
@[simp] theorem writeContext_capAccel (p : List Byte) (s : State) :
    (writeContext p s).capAccel = s.capAccel := rfl
@[simp] theorem writeContext_capStable (p : List Byte) (s : State) :
    (writeContext p s).capStable = s.capStable := rfl
@[simp] theorem writeContext_rst (p : List Byte) (s : State) :
    (writeContext p s).rst = s.rst := rfl
@[simp] theorem writeContext_turns (p : List Byte) (s : State) :
    (writeContext p s).turns = s.turns := rfl
@[simp] theorem writeContext_ret (p : List Byte) (s : State) :
    (writeContext p s).ret = s.ret := rfl
@[simp] theorem writeContext_draws (p : List Byte) (s : State) :
    (writeContext p s).draws = s.draws := rfl

/-! ### Power-on reset -/

@[simp] theorem powerOn_ctxS (s : State) : (powerOn s).ctxS = zeroSponge := rfl
@[simp] theorem powerOn_buf (s : State) : (powerOn s).buf = [] := rfl
@[simp] theorem powerOn_selValid (s : State) : (powerOn s).selValid = false := rfl
@[simp] theorem powerOn_sel (s : State) : (powerOn s).sel = .portable := rfl
@[simp] theorem powerOn_cmdPort (s : State) : (powerOn s).cmdPort = s.cmdPort := rfl
@[simp] theorem powerOn_respPort (s : State) : (powerOn s).respPort = none := rfl
@[simp] theorem powerOn_capAccel (s : State) : (powerOn s).capAccel = s.capAccel := rfl
@[simp] theorem powerOn_capStable (s : State) : (powerOn s).capStable = true := rfl
@[simp] theorem powerOn_rst (s : State) : (powerOn s).rst = true := rfl
@[simp] theorem powerOn_turns (s : State) : (powerOn s).turns = s.turns := rfl
@[simp] theorem powerOn_draws (s : State) : (powerOn s).draws = s.draws := rfl

/-! ### Driving `cap_accel`: it touches `capAccel` and `capStable` only -/

@[simp] theorem driveCap_ctxS (l : CapLevel) (s : State) : (driveCap l s).ctxS = s.ctxS := rfl
@[simp] theorem driveCap_buf (l : CapLevel) (s : State) : (driveCap l s).buf = s.buf := rfl
@[simp] theorem driveCap_selValid (l : CapLevel) (s : State) :
    (driveCap l s).selValid = s.selValid := rfl
@[simp] theorem driveCap_sel (l : CapLevel) (s : State) : (driveCap l s).sel = s.sel := rfl
@[simp] theorem driveCap_scr (l : CapLevel) (s : State) : (driveCap l s).scr = s.scr := rfl
@[simp] theorem driveCap_cmdPort (l : CapLevel) (s : State) :
    (driveCap l s).cmdPort = s.cmdPort := rfl
@[simp] theorem driveCap_respPort (l : CapLevel) (s : State) :
    (driveCap l s).respPort = s.respPort := rfl
@[simp] theorem driveCap_capAccel (l : CapLevel) (s : State) : (driveCap l s).capAccel = l := rfl
@[simp] theorem driveCap_capStable (l : CapLevel) (s : State) :
    (driveCap l s).capStable = (s.capStable && (s.rst || decide (l = s.capAccel))) := rfl
@[simp] theorem driveCap_rst (l : CapLevel) (s : State) : (driveCap l s).rst = s.rst := rfl
@[simp] theorem driveCap_turns (l : CapLevel) (s : State) : (driveCap l s).turns = s.turns := rfl
@[simp] theorem driveCap_ret (l : CapLevel) (s : State) : (driveCap l s).ret = s.ret := rfl
@[simp] theorem driveCap_draws (l : CapLevel) (s : State) : (driveCap l s).draws = s.draws := rfl

end Sys2Proof.Machine
end

