-- ==== Sys2Proof/Laws/Ops.lean ====
section
/-!
SUPPORT. What each shared operation can do, said once: the latch, the choice of the next command,
a turn of the outside world, a step, and running operations in a row.
-/

namespace Sys2Proof.Machine

/-- LatchSel either finds a valid selection and does nothing, or makes one. -/
theorem latchSel_cases (s : State) :
    (s.selValid = true ∧ latchSel s = s) ∨
      (s.selValid = false ∧ latchSel s = { s with
        sel := selectBackend Config.buildAccel (sampleCap s.capAccel s.capStable s.draws)
        selValid := true, draws := s.draws + 1 }) := by
  cases h : s.selValid <;> simp [latchSel, h]

/-- A sample of `cap_accel` is the table of R162, or the free value. -/
theorem sampleCap_cases (l : CapLevel) (stable : Bool) (n : Nat) :
    (stable = true ∧ l ≠ .unsettled ∧ sampleCap l stable n = decide (l = .one)) ∨
      ((stable = false ∨ l = .unsettled) ∧ sampleCap l stable n = Config.freeCap n) := by
  cases stable <;> cases l <;> simp [sampleCap]

/-- Once a selection is valid, the latch does nothing. -/
theorem latchSel_of_valid {s : State} (h : s.selValid = true) : latchSel s = s := by
  simp [latchSel, h]

/-- The latch and the response do not meet. -/
theorem latchSel_respond (r : Response) (s : State) :
    latchSel (respond r s) = respond r (latchSel s) := by
  by_cases h : s.selValid = true <;> simp [latchSel, respond, h]

@[simp] theorem latchSel_latchSel (s : State) : latchSel (latchSel s) = latchSel s := by
  conv_lhs => rw [latchSel]
  simp

/-- The block accepts the head of the port, and only with `rst` released and no response pending. -/
theorem nextCommand_eq_some {s s1 : State} {c : Command} (h : nextCommand s = some (c, s1)) :
    ∃ rest, s.rst = false ∧ s.respPort = none ∧ s.cmdPort = c :: rest ∧
      s1 = { s with cmdPort := rest } := by
  unfold nextCommand at h
  split at h
  · rename_i rest h1 h2 h3
    obtain ⟨rfl, rfl⟩ := by simpa using h
    exact ⟨rest, h1, h2, h3, rfl⟩
  · cases h

theorem nextCommand_cons {s : State} {c : Command} {rest : List Command} (h1 : s.rst = false)
    (h2 : s.respPort = none) (h3 : s.cmdPort = c :: rest) :
    nextCommand s = some (c, { s with cmdPort := rest }) := by
  simp [nextCommand, h1, h2, h3]

@[simp] theorem nextTurn_cons (s : State) (t : Turn) (ts : List Turn) (h : s.turns = t :: ts) :
    nextTurn s = (t, { s with turns := ts }) := by simp [nextTurn, h]

theorem nextTurn_nil (s : State) (h : s.turns = []) :
    nextTurn s = (if s.respPort.isSome then .take else .block, s) := by simp [nextTurn, h]

/-- The state after the choice of the turn is the state, but for the schedule. -/
theorem nextTurn_snd (s : State) : (nextTurn s).2 = { s with turns := s.turns.tail } := by
  unfold nextTurn
  split <;> simp_all
  cases s; simp_all

/-- The five decodings of a command, in one disjunction. -/
theorem decode_cases (c : Command) :
    decode c = .hreset ∨ decode c = .hwrite c.payload ∨ decode c = .hsum ∨
      decode c = .hash c.payload ∨ decode c = .illegal c := by
  unfold decode
  split_ifs <;> simp

/-- What a step can do: a block's turn that runs a command, a block's turn that waits, or a move of
the outside world. -/
theorem step_cases {s t : State} (h : step s = .next t) :
    (∃ c rest s1, (nextTurn s).1 = .block ∧ s.rst = false ∧ s.respPort = none ∧
        s.cmdPort = c :: rest ∧
        s1 = { s with cmdPort := rest, turns := s.turns.tail } ∧ exec (decode c) s1 = .next t) ∨
      ((nextTurn s).1 = .block ∧ nextCommand (nextTurn s).2 = none ∧
        t = waitTurn (nextTurn s).2) ∨
      ((nextTurn s).1 ≠ .block ∧ t = outsideTurn (nextTurn s).1 (nextTurn s).2) := by
  have hs := nextTurn_snd s
  unfold step at h
  split at h
  · rename_i s1 h1
    rw [h1] at hs ⊢
    simp only [] at hs
    unfold blockTurn at h
    split at h
    · rename_i c s2 h2
      obtain ⟨rest, e1, e2, e3, rfl⟩ := nextCommand_eq_some h2
      refine .inl ⟨c, rest, _, rfl, ?_, ?_, ?_, ?_, h⟩ <;> simp_all
    · rename_i h2
      refine .inr (.inl ⟨rfl, h2, ?_⟩)
      simpa using h.symm
  · rename_i u s1 hne h1
    rw [h1]
    refine .inr (.inr ⟨fun hu => hne hu, ?_⟩)
    simpa using h.symm

@[simp] theorem execAll_nil (s : State) : execAll [] s = .next s := rfl

/-- Peeling one operation off a run. -/
theorem execAll_cons {i : Instr} {is : List Instr} {s t : State} (h : exec i s = .next t) :
    execAll (i :: is) s = execAll is t := by simp [execAll, h]

/-- Running two lists of operations one after the other. -/
theorem execAll_append {is js : List Instr} {s t : State} (h : execAll is s = .next t) :
    execAll (is ++ js) s = execAll js t := by
  induction is generalizing s with
  | nil => simp_all
  | cons i is ih =>
    rw [execAll] at h
    rw [List.cons_append, execAll]
    split at h
    · exact ih h
    · cases h
    · cases h

/-- Peeling one step off several. -/
theorem steps_succ {n : Nat} {s t : State} (h : step s = .next t) :
    steps (n + 1) s = steps n t := by simp [steps, h]

end Sys2Proof.Machine
end

