-- ==== Sys2Proof/Laws/PerInstr.lean ====
section
/-!
SUPPORT. The family `EncodedIsLegal`: what the encoding of a well-formed operation says of its
command, one lemma per constructor of `Instr`.
-/

namespace Sys2Proof.Laws.EncodedIsLegal

/-- The command of a well-formed ILLEGAL is illegal, and that of any other operation is legal. -/
def Statement (i : Instr) : Prop :=
  i.wellFormed = true → ∀ c, encode i = some c →
    c.isLegal = match i with
      | .illegal _ => false
      | _ => true

/-- The one step of every operation without an encoding. -/
theorem of_none {i : Instr} (h : encode i = none) : Statement i := by
  intro _ c hc
  rw [h] at hc
  cases hc

theorem hreset : Statement .hreset := by
  intro _ c hc; cases hc; rfl
theorem hwrite (p : List Byte) : Statement (.hwrite p) := by
  intro _ c hc; cases hc; simp [Command.isLegal]
theorem hsum : Statement .hsum := by
  intro _ c hc; cases hc; rfl
theorem hash (p : List Byte) : Statement (.hash p) := by
  intro _ c hc; cases hc; simp [Command.isLegal]
theorem illegal (c : Command) : Statement (.illegal c) := by
  intro h d hd; cases hd; simpa [Instr.wellFormed] using h
theorem theta (r : SReg) : Statement (.theta r) := of_none rfl
theorem rho (r : SReg) : Statement (.rho r) := of_none rfl
theorem pi (r : SReg) : Statement (.pi r) := of_none rfl
theorem chi (r : SReg) : Statement (.chi r) := of_none rfl
theorem iota (r : SReg) (i : Fin 24) : Statement (.iota r i) := of_none rfl
theorem round (r : SReg) (i : Fin 24) : Statement (.round r i) := of_none rfl
theorem keccakF (r : SReg) : Statement (.keccakF r) := of_none rfl
theorem absorbBlock (r : SReg) (b : List Byte) : Statement (.absorbBlock r b) := of_none rfl
theorem absorbBlocks (r : SReg) (m : List Byte) : Statement (.absorbBlocks r m) := of_none rfl
theorem padFinal (r : SReg) (t : List Byte) : Statement (.padFinal r t) := of_none rfl
theorem squeeze (r : SReg) : Statement (.squeeze r) := of_none rfl
theorem keccak256 (m : List Byte) : Statement (.keccak256 m) := of_none rfl
theorem latchSel : Statement .latchSel := of_none rfl
theorem select (build c : Bool) : Statement (.select build c) := of_none rfl

end Sys2Proof.Laws.EncodedIsLegal
end

