-- ==== Sys2Proof/Laws/Slices.lean ====
section
/-!
SUPPORT. Sub-sequences of a payload, and one block of AbsorbBlocks.
-/

namespace Sys2Proof.Machine

theorem slice_zero (L : List Byte) (b : Nat) : slice L 0 b = L.take b := by simp [slice]

theorem slice_to_end (L : List Byte) (a : Nat) : slice L a L.length = L.drop a := by simp [slice]

theorem slice_length (L : List Byte) (a b : Nat) (h : b ≤ L.length) :
    (slice L a b).length = b - a := by
  simp [slice]; omega

/-- A slice that ends inside the first part is a slice of the first part. -/
theorem slice_append_left (M N : List Byte) (a b : Nat) (h : b ≤ M.length) :
    slice (M ++ N) a b = slice M a b := by
  simp [slice, List.take_append_of_le_length h]

/-- A slice past the first part is a slice of the second. -/
theorem slice_append_right (M N : List Byte) (a b : Nat) :
    slice (M ++ N) (M.length + a) (M.length + b) = slice N a b := by
  simp [slice, List.take_append, List.drop_append]

@[simp] theorem absorbBlocksInto_nil (S : Sponge) : absorbBlocksInto S [] = S := by
  simp [absorbBlocksInto]

/-- AbsorbBlocks of one block is AbsorbBlock. -/
theorem absorbBlocksInto_one (S : Sponge) (B : List Byte) (h : B.length = 136) :
    absorbBlocksInto S B = absorbBlockInto S B := by
  have hB : slice B 0 136 = B := by rw [slice_zero, List.take_of_length_le (by omega)]
  simp [absorbBlocksInto, h, List.range_succ, hB]

/-- An empty payload leaves CTX_S and a buffer that is not full. -/
theorem writeInto_nil (S : Sponge) (buf : List Byte) (h : buf.length ≤ 135) :
    writeInto S buf [] = (S, buf) := by
  by_cases h1 : buf.length > 0
  · simp [writeInto, topUp, h1, slice, absorbWhole, show buf.length ≠ 136 by omega]
  · have : buf = [] := by simpa using h1
    subst this; rfl

end Sys2Proof.Machine
end

