-- ==== Sys2Proof/Laws/Views.lean ====
section
/-!
SUPPORT. What the byte and lane operations do, byte by byte and lane by lane: one lemma each, so
that no later proof unfolds a `Vector.ofFn`.
-/

namespace Sys2Proof.Machine

/-- Every lane number is that of one lane (x,y). -/
theorem laneNumber_div_mod (w : Fin 25) :
    laneNumber ⟨w.val % 5, by omega⟩ ⟨w.val / 5, by omega⟩ = w := by
  apply Fin.ext; simp only [laneNumber]; omega

@[simp] theorem laneAt_lanesOf (f : Fin 5 → Fin 5 → Lane) (x y : Fin 5) :
    laneAt (lanesOf f) x y = f x y := by
  have h1 : (x.val + 5 * y.val) % 5 = x.val := by omega
  have h2 : (x.val + 5 * y.val) / 5 = y.val := by omega
  simp [laneAt, lanesOf, laneNumber, h1, h2]

/-- Two lane matrices are equal when their lanes are. -/
theorem lanes_ext {A B : Lanes} (h : ∀ x y, laneAt A x y = laneAt B x y) : A = B := by
  apply Vector.ext
  intro w hw
  have := h ⟨w % 5, by omega⟩ ⟨w / 5, by omega⟩
  simp only [laneAt, laneNumber_div_mod ⟨w, hw⟩] at this
  exact this

/-- Two sponge states are equal when their bytes are. -/
theorem sponge_ext {S T : Sponge} (h : ∀ i : Fin 200, S[i] = T[i]) : S = T :=
  Vector.ext fun i hi => h ⟨i, hi⟩

@[simp] theorem zeroSponge_getElem (i : Nat) (h : i < 200) : zeroSponge[i] = 0 := by
  simp [zeroSponge]

@[simp] theorem zeroDigest_getElem (i : Nat) (h : i < 32) : zeroDigest[i] = 0 := by
  simp [zeroDigest]

/-- Absorption XORs byte i of the block, if there is one, into state byte i. -/
@[simp] theorem xorBytes_getElem (S : Sponge) (B : List Byte) (i : Nat) (h : i < 200) :
    (xorBytes S B)[i] = S[i] ^^^ B.getD i 0 := by simp [xorBytes]

@[simp] theorem xorByteAt_getElem (S : Sponge) (n : Nat) (v : Byte) (i : Nat) (h : i < 200) :
    (xorByteAt S n v)[i] = if i = n then S[i] ^^^ v else S[i] := by simp [xorByteAt]

@[simp] theorem squeezeFrom_getElem (S : Sponge) (j : Nat) (h : j < 32) :
    (squeezeFrom S)[j] = S[j] := by simp [squeezeFrom]

@[simp] theorem spongeOf_getElem (A : Lanes) (i : Nat) (h : i < 200) :
    (spongeOf A)[i] = laneByte A[i / 8] (i % 8) := by simp [spongeOf]

@[simp] theorem lanes_getElem (S : Sponge) (w : Nat) (h : w < 25) :
    (lanes S)[w] = le64 (Vector.ofFn fun j => S[8 * w + j.val]) := by simp [lanes]

/-- Bit k of LE64(b0..b7) is bit k mod 8 of byte k / 8. -/
theorem le64_getLsbD (b : Vector Byte 8) (k : Nat) (h : k < 64) :
    (le64 b).getLsbD k = b[k / 8].getLsbD (k % 8) := by
  have pick : ∀ (j : Nat) (hj : j < 8), k / 8 = j →
      b[j].getLsbD (k - 8 * j) = b[k / 8].getLsbD (k % 8) := by
    rintro j hj rfl
    rw [← Nat.mod_eq_sub_mul_div]
  unfold le64
  iterate 7 rw [BitVec.getLsbD_append]
  simp only [Nat.sub_sub]
  split_ifs
  · exact pick 0 (by omega) (by omega)
  · exact pick 1 (by omega) (by omega)
  · exact pick 2 (by omega) (by omega)
  · exact pick 3 (by omega) (by omega)
  · exact pick 4 (by omega) (by omega)
  · exact pick 5 (by omega) (by omega)
  · exact pick 6 (by omega) (by omega)
  · exact pick 7 (by omega) (by omega)

theorem laneByte_getLsbD (v : Lane) (j i : Nat) :
    (laneByte v j).getLsbD i = (decide (i < 8) && v.getLsbD (8 * j + i)) := by
  simp [laneByte]

/-- Byte j of LE64(b0..b7) is b_j. -/
theorem laneByte_le64 (b : Vector Byte 8) (j : Nat) (h : j < 8) : laneByte (le64 b) j = b[j] := by
  apply BitVec.eq_of_getLsbD_eq
  intro i hi
  have h1 : (8 * j + i) / 8 = j := by omega
  have h2 : (8 * j + i) % 8 = i := by omega
  rw [laneByte_getLsbD, le64_getLsbD b (8 * j + i) (by omega)]
  simp [hi, h1, h2]

/-- What PadFinal XORs into state byte i before its KeccakF. -/
theorem padTail_getElem (S : Sponge) (T : List Byte) (i : Nat) (h : i < 200) :
    (padTail S T)[i] =
      (if i = 135 then (if i = T.length then S[i] ^^^ T.getD i 0 ^^^ 0x01 else S[i] ^^^ T.getD i 0)
        ^^^ 0x80
      else if i = T.length then S[i] ^^^ T.getD i 0 ^^^ 0x01 else S[i] ^^^ T.getD i 0) := by
  simp [padTail]

end Sys2Proof.Machine
end

