-- ==== Sys2Proof/Tests/Slice0.lean ====
section
/-!
SUPPORT. Tests of the model: the well-formedness smoke tests, words written out from the encoding
rules, vectors of spec/95_test_vectors.md (each test names its vector), and, for every statement
with hypotheses, a state and operands that meet them.
-/

namespace Sys2Proof.Tests

open Sys2Proof.Machine

/-! ## Well-formedness: each check refuses an ill-formed term -/

theorem test_wf_illegal_refuses_legal_command :
    (Instr.illegal ⟨0x00000002, [0x61]⟩).wellFormed = false := by decide
theorem test_wf_illegal_refuses_plain_hreset :
    (Instr.illegal ⟨0x00000001, []⟩).wellFormed = false := by decide
theorem test_wf_block_length :
    (Instr.absorbBlock .ctx (List.replicate 135 0)).wellFormed = false := by decide +kernel
theorem test_wf_blocks_length :
    (Instr.absorbBlocks .scr (List.replicate 137 0)).wellFormed = false := by decide +kernel
theorem test_wf_tail_length :
    (Instr.padFinal .scr (List.replicate 136 0)).wellFormed = false := by decide +kernel
theorem test_wf_accepts :
    (Instr.illegal ⟨0x00000001, [0x78]⟩).wellFormed = true ∧
    (Instr.absorbBlock .ctx (List.replicate 136 0)).wellFormed = true ∧
    (Instr.absorbBlocks .scr (List.replicate 272 0)).wellFormed = true ∧
    (Instr.padFinal .scr (List.replicate 135 0)).wellFormed = true := by decide +kernel

/-! ## Decoding: words written out bit by bit from R66 and R68 (V6), OPC low, RSVD high -/

theorem test_decode_hreset :
    decode ⟨0b00000000_00000000_00000000_00000001, []⟩ = .hreset := by decide
theorem test_decode_hwrite :
    decode ⟨0b00000000_00000000_00000000_00000010, [0x61, 0x62, 0x63]⟩ =
      .hwrite [0x61, 0x62, 0x63] := by decide
theorem test_decode_hsum :
    decode ⟨0b00000000_00000000_00000000_00000011, []⟩ = .hsum := by decide
theorem test_decode_hash :
    decode ⟨0b00000000_00000000_00000000_00000100, []⟩ = .hash [] := by decide
/-- 0x00000102 and 0xFFFFFF04: RSVD is not ignored. -/
theorem test_decode_rsvd :
    decode ⟨0b00000000_00000000_00000001_00000010, []⟩ =
      .illegal ⟨0b00000000_00000000_00000001_00000010, []⟩ ∧
    decode ⟨0b11111111_11111111_11111111_00000100, []⟩ =
      .illegal ⟨0b11111111_11111111_11111111_00000100, []⟩ := by decide
/-- 0x00000001 with a payload. -/
theorem test_decode_hreset_with_payload :
    decode ⟨0b00000000_00000000_00000000_00000001, [0x00]⟩ =
      .illegal ⟨0b00000000_00000000_00000000_00000001, [0x00]⟩ := by decide
theorem test_decode_bytes :
    decodeBytes [0x02, 0x00, 0x00, 0x00, 0x7A] = .ok (.hwrite [0x7A]) ∧
    decodeBytes [0x00, 0x00, 0x00, 0x02] = .ok (.illegal ⟨0x02000000, []⟩) ∧
    decodeBytes [0x02, 0x00, 0x00] = .error (.shortCommandWord 3) := by
  refine ⟨rfl, rfl, rfl⟩
theorem test_decode_table_words :
    decodeTableWord 32 1 = some .hreset ∧ decodeTableWord 32 2 = some (.hwrite []) ∧
    decodeTableWord 32 3 = some .hsum ∧ decodeTableWord 32 4 = some (.hash []) ∧
    decodeTableWord 32 0x103 = some (.illegal ⟨0x103, []⟩) := by decide

/-! ## Small states -/

/-- A state whose scratch state holds this lane matrix, row y = 0 first. -/
def onScr (A : Lanes) : State := { State.reset with scr := spongeOf A }

/-- The lane matrix with lane (x,y) = 1 for this one lane, and zero elsewhere. -/
def oneLane (x y : Fin 5) (v : Lane) : Lanes :=
  lanesOf fun x' y' => if x' = x ∧ y' = y then v else 0

/-- What an operation leaves of the scratch state: rows y, lanes x (the grids of V2). -/
def rowOf (o : Host.Outcome State Fault Refusal) (y : Fin 5) : List Lane :=
  match o with
  | .next t => (List.finRange 5).map fun x => laneAt (lanes t.scr) x y
  | _ => []

/-- The response an outcome leaves on the port. -/
def responseOf (o : Host.Outcome State Fault Refusal) : Option Response :=
  match o with
  | .next t => t.respPort
  | _ => none

/-- Whether an outcome is a next state with this property. -/
def nextHas (o : Host.Outcome State Fault Refusal) (P : State → Bool) : Bool :=
  match o with
  | .next t => P t
  | _ => false

/-- The context at (2, "ab", 0) with SEL_VALID = 1 (V4.5, V4.6). -/
def midMessage : State := { State.reset with buf := [0x61, 0x62], selValid := true }

/-! ## The permutation -/

/-- V2.1. -/
theorem test_theta_one_bit :
    rowOf (exec (.theta .scr) (onScr (oneLane 0 0 1))) 0 = [1, 1, 0, 0, 2] := by decide +kernel
/-- V2.3, row 3. -/
theorem test_rho_all_ones_lanes :
    rowOf (exec (.rho .scr) (onScr (Vector.replicate 25 1))) 3 =
      [0x20000000000, 0x200000000000, 0x8000, 0x200000, 0x100] := by decide +kernel
/-- V2.4, row 4: lane (x,y) holds its number. -/
theorem test_pi_lane_numbers :
    rowOf (exec (.pi .scr) (onScr (lanesOf fun x y => BitVec.ofNat 64 (x.val + 5 * y.val)))) 4 =
      [0x2, 0x8, 0xE, 0xF, 0x15] := by decide +kernel
/-- V2.6: row 0 = (F, 0, F, 0, 0) gives (0, 0, F, F, 0). -/
theorem test_chi_reads_the_input :
    rowOf (exec (.chi .scr) (onScr (lanesOf fun x y =>
      if y = 0 ∧ (x = 0 ∨ x = 2) then 0xFFFFFFFFFFFFFFFF else 0))) 0 =
      [0, 0, 0xFFFFFFFFFFFFFFFF, 0xFFFFFFFFFFFFFFFF, 0] := by decide +kernel
/-- V2.5: with only A[1,0] = 1, row 0 becomes (0, 1, 0, 0, 1). -/
theorem test_chi_one_bit :
    rowOf (exec (.chi .scr) (onScr (oneLane 1 0 1))) 0 = [0, 1, 0, 0, 1] := by decide +kernel
/-- V2.7. -/
theorem test_iota_constants :
    rowOf (exec (.iota .scr 1) State.reset) 0 = [0x8082, 0, 0, 0, 0] ∧
    rowOf (exec (.iota .scr 23) State.reset) 0 = [0x8000000080008008, 0, 0, 0, 0] := by
  decide +kernel
/-- V2.8, rows 0 and 4 of the second round. -/
theorem test_two_rounds :
    rowOf (execAll [.round .scr 0, .round .scr 1] State.reset) 0 =
      [0x8083, 0x100000000000, 0x8000, 0x1, 0x100000008000] ∧
    rowOf (execAll [.round .scr 0, .round .scr 1] State.reset) 4 =
      [0x10000000000, 0, 0x10000000004, 0, 0x4] := by decide +kernel

/-! ## The sponge engine -/

/-- V3.1: the pad images before KeccakF, lanes (0,0) and (1,3), for tails of 0, 1 and 135 zeros. -/
theorem test_pad_images :
    laneAt (lanes (padTail zeroSponge [])) 1 3 = 0x8000000000000000 ∧
    laneAt (lanes (padTail zeroSponge [0x00])) 0 0 = 0x100 ∧
    laneAt (lanes (padTail zeroSponge (List.replicate 135 0x00))) 1 3 = 0x8100000000000000 := by
  decide +kernel
/-- R47: message byte 8w+j lands in bits [8j+7:8j] of lane w (here w = 16 = (1,3), j = 7). -/
theorem test_last_block_byte :
    laneAt (lanes (xorBytes zeroSponge (List.replicate 135 0x00 ++ [0xA5]))) 1 3 =
      0xA500000000000000 := by decide +kernel
/-- V4.2: from (0, 0), HWRITE zeros(136) absorbs straight from the payload: KeccakF(zero), whose
row 0 is V2.9. -/
theorem test_hwrite_whole_block :
    nextHas (exec (.hwrite (List.replicate 136 0x00)) State.reset) (fun t =>
      t.buf = [] && laneAt (lanes t.ctxS) 4 0 = 0x8b284e056253d057) = true := by decide +kernel
/-- V4.2: the two sides of step (a): (2, "ab") with "c" keeps three bytes; (135) with two bytes
fills the buffer and keeps the second. -/
theorem test_hwrite_buffers :
    (writeInto zeroSponge [0x61, 0x62] [0x63]).2 = [0x61, 0x62, 0x63] ∧
    (writeInto zeroSponge (List.replicate 135 0x00) [0x01, 0x02]).2 = [0x02] := by decide +kernel

/-! ## The commands -/

/-- V4.5, V3.2: HASH "abc" through the command port, whatever the context holds (R148). -/
theorem test_hash_abc :
    responseOf (step (withCommand ⟨0x00000004, [0x61, 0x62, 0x63]⟩ midMessage)) =
      some ⟨0x00, #v[0x4e, 0x03, 0x65, 0x7a, 0xea, 0x45, 0xa9, 0x4f, 0xc7, 0xd4, 0x7b, 0xa8, 0x26,
        0xc8, 0xd6, 0x67, 0xc0, 0xd1, 0xe6, 0xe3, 0x3a, 0x64, 0xa0, 0x36, 0xec, 0x44, 0xf5, 0x8f,
        0xa1, 0x2d, 0x6c, 0x45]⟩ := by decide +kernel
/-- V4.4, V4.5: HASH and HSUM leave the context at (2, "ab", 0). -/
theorem test_digests_keep_the_context :
    nextHas (execAll [.hash [0x78], .hsum] midMessage) (fun t =>
      t.buf = [0x61, 0x62] && t.ctxS = zeroSponge) = true := by decide +kernel
/-- V4.1: from (2, "ab", 0) HRESET gives (0, [], 0), OK and 32 zero bytes. -/
theorem test_hreset :
    nextHas (step (withCommand ⟨0x00000001, []⟩ midMessage)) (fun t =>
      t.buf = [] && t.respPort = some ⟨0x00, Vector.replicate 32 0x00⟩ && t.selValid) = true := by
  decide +kernel
/-- V4.6: RAW 0x80000002 "zz": the payload is discarded, STATUS 01, state unchanged. -/
theorem test_illegal_discards_payload :
    step (withCommand ⟨0x80000002, [0x7A, 0x7A]⟩ midMessage) =
      .next { midMessage with respPort := some ⟨0x01, Vector.replicate 32 0x00⟩ } := rfl
/-- V5.2: an illegal command does not latch SEL. -/
theorem test_illegal_does_not_latch :
    nextHas (step (withCommand ⟨0x00000007, []⟩ State.reset)) (fun t => !t.selValid) = true := by
  decide

/-! ## The dispatcher -/

/-- V5.1, all five lines. -/
theorem test_select_table :
    selectBackend false (sampleCap .zero true 0) = .portable ∧
    selectBackend false (sampleCap .one true 0) = .portable ∧
    selectBackend true (sampleCap .zero true 0) = .portable ∧
    selectBackend true (sampleCap .unknown true 0) = .portable ∧
    selectBackend true (sampleCap .one true 0) = .accel := by decide
/-- R204: driven before `rst` is released and held, the level is sampled. -/
theorem test_held_cap_is_sampled :
    nextHas (steps 4 { State.reset with
        rst := true, turns := [.drive .one, .releaseRst, .offer ⟨1, []⟩, .block] })
      (fun t => t.capStable && t.selValid && t.capAccel = .one) = true ∧
    ∀ n, sampleCap .one true n = true := ⟨rfl, fun _ => rfl⟩
/-- R204: driven after `rst` is released, the sample is the free value and not the level. -/
theorem test_late_cap_is_free :
    ∃ t, steps 4 { State.reset with
        rst := true, capAccel := .zero,
        turns := [.releaseRst, .drive .one, .offer ⟨1, []⟩, .block] } = .next t ∧
      t.capStable = false ∧ t.sel = selectBackend Config.buildAccel (Config.freeCap 0) :=
  ⟨_, rfl, rfl, rfl⟩
/-- V5.2: once latched, SEL stays whatever `cap_accel` does. -/
theorem test_latch_is_fixed :
    execLatchSel { midMessage with sel := .accel, capAccel := .zero } =
      .next { midMessage with sel := .accel, capAccel := .zero } := rfl

/-! ## Witnesses: what the statements with hypotheses are about exists -/

/-- A state whose buffer is full but for one byte (the boundary of R24). -/
def fullBuffer : State := { State.reset with buf := List.replicate 135 0x00 }

/-- A state with a command offered and a response pending. -/
def waiting : State :=
  { midMessage with cmdPort := [⟨0x00000003, []⟩], respPort := some okResponse }

theorem witness_DecoderFollowsOpcodeMap :
    (0x000001 : BitVec 24) ≠ 0 ∧ (0x000000 : BitVec 24) = 0 ∧ 0x05 ≤ (0x05 : BitVec 8).toNat ∧
    0x05 ≤ (0xFF : BitVec 8).toNat := by decide
theorem witness_IllegalCommandsChangeNothing :
    (0x00000000 : Word).toNat = 0x00 ∧ 0x05 ≤ (0x00000005 : Word).toNat ∧
    (0x000000FF : Word).toNat < 2 ^ 8 ∧ 2 ^ 8 ≤ (0x00000100 : Word).toNat ∧
    ([0x78] : List Byte) ≠ [] := by decide
theorem witness_DecodeEncodeAgree :
    (Instr.illegal ⟨0x00000100, []⟩).wellFormed = true ∧
    encode (.illegal ⟨0x00000100, []⟩) = some ⟨0x00000100, []⟩ ∧
    (Instr.hwrite [0x61]).wellFormed = true ∧ encode (.hwrite [0x61]) = some ⟨2, [0x61]⟩ := by decide
theorem witness_ByteTransactionRoundTrip :
    (Instr.hash [0x61]).wellFormed = true ∧ (Instr.hash [0x61]).isCommand = true ∧
    decodeBytes [0x04, 0x00, 0x00, 0x00, 0x61] = .ok (.hash [0x61]) := by
  refine ⟨rfl, rfl, rfl⟩
theorem witness_ShortTransactionsAreRejected :
    ([0, 0, 0] : List Byte).length < 4 ∧ 4 ≤ ([0, 0, 0, 0] : List Byte).length := by decide
theorem witness_StepRunsDecodedCommand :
    ∃ s : State, s.rst = false ∧ s.respPort = none ∧ s.cmdPort = ⟨3, []⟩ :: [] ∧
      s.turns = [.block] :=
  ⟨withCommand ⟨3, []⟩ midMessage, rfl, rfl, rfl, rfl⟩
theorem witness_StepRunsDecodedCommand_unscheduled :
    ∃ s : State, s.rst = false ∧ s.respPort = none ∧ s.cmdPort = ⟨3, []⟩ :: [] ∧ s.turns = [] :=
  ⟨{ midMessage with cmdPort := [⟨3, []⟩] }, rfl, rfl, rfl, rfl⟩
theorem witness_PendingResponseIsNeverDropped :
    waiting.respPort = some okResponse ∧ step { waiting with turns := [.block] } = .next waiting :=
  ⟨rfl, rfl⟩
theorem witness_step_answers :
    step { State.reset with turns := [.offer ⟨1, []⟩] } =
      .next { State.reset with cmdPort := [⟨1, []⟩] } := rfl
theorem witness_OutsideMovesChangeOnePort :
    (∃ s : State, s.turns = .offer ⟨3, []⟩ :: [.block]) ∧ (∃ s : State, s.turns = .take :: []) ∧
    (∃ s : State, s.turns = .drive .one :: []) ∧ (∃ s : State, s.turns = .releaseRst :: []) :=
  ⟨⟨{ midMessage with turns := [.offer ⟨3, []⟩, .block] }, rfl⟩,
    ⟨{ waiting with turns := [.take] }, rfl⟩, ⟨{ midMessage with turns := [.drive .one] }, rfl⟩,
    ⟨{ State.reset with rst := true, turns := [.releaseRst] }, rfl⟩⟩
theorem witness_PowerOnResetClearsTheBlock :
    ({ waiting with turns := [.assertRst] } : State).turns = .assertRst :: [] ∧
    ({ waiting with rst := true, turns := [.block] } : State).rst = true := ⟨rfl, rfl⟩
theorem witness_ResetDuringCommandAbandonsIt :
    ∃ s : State, s.rst = false ∧ s.respPort = none ∧ s.cmdPort = ⟨3, []⟩ :: [] ∧
      s.turns = .abortRst :: [] :=
  ⟨{ midMessage with cmdPort := [⟨3, []⟩], turns := [.abortRst] }, rfl, rfl, rfl, rfl⟩
/-- An invariant state with a message in progress, a response pending and a command offered. -/
theorem witness_Inv : Inv waiting :=
  ⟨by decide, by simp [waiting, midMessage, State.reset],
    by simp [waiting, okResponse, statusOk], by simp [waiting, midMessage, State.reset]⟩
/-- An invariant state at the boundary of BUF_CNT. -/
theorem witness_Inv_fullBuffer : Inv fullBuffer ∧ fullBuffer.buf.length = 135 :=
  ⟨⟨by decide +kernel, by simp [fullBuffer, State.reset], by simp [fullBuffer, State.reset],
    by simp [fullBuffer, State.reset]⟩, by decide +kernel⟩
theorem witness_HoldsMessage : HoldsMessage midMessage [0x61, 0x62] := ⟨rfl, rfl⟩
theorem witness_EveryStepKeepsTheInvariant :
    Inv waiting ∧ step waiting = .next { waiting with respPort := none } := ⟨witness_Inv, rfl⟩
theorem witness_EveryStepKeepsTheMessage :
    ∃ s t : State, HoldsMessage s [0x61, 0x62] ∧ acceptedNow s = some ⟨2, [0x63]⟩ ∧
      step s = .next t :=
  ⟨withCommand ⟨2, [0x63]⟩ midMessage, _, ⟨rfl, rfl⟩, rfl, rfl⟩
theorem witness_ContextHasTwoWriters :
    ∃ s t : State, Inv s ∧ acceptedNow s = some ⟨2, [0x63]⟩ ∧ step s = .next t :=
  ⟨withCommand ⟨2, [0x63]⟩ midMessage, _,
    ⟨by decide, by simp [withCommand, midMessage, State.reset], by simp [withCommand],
      by simp [withCommand]⟩, rfl, rfl⟩
theorem witness_RotationMovesBits : (63 : Nat) < 64 ∧ (0 : Nat) < 64 := by decide
theorem witness_ThetaMixesColumnParities :
    (∀ x, columnParity (lanes State.reset.scr) x = 0) ∧
    (∀ x, columnParity (lanes (onScr (Vector.replicate 25 (BitVec.allOnes 64))).scr) x =
      BitVec.allOnes 64) := by decide +kernel
theorem witness_ChiMixesRowsFromInput :
    (∀ x, laneAt (lanes State.reset.scr) x 0 = 0) ∧
    (∀ x, laneAt (lanes (onScr (Vector.replicate 25 (BitVec.allOnes 64))).scr) x 0 =
      BitVec.allOnes 64) := by decide +kernel
theorem witness_RhoOffsetTable : rhoOffset 0 0 = rhoOffset 0 0 ∧ rhoOffset 0 0 = 0 := by decide
theorem witness_RhoRotatesEveryLane :
    laneAt (lanes State.reset.scr) 4 1 = 0 ∧
    laneAt (lanes (onScr (Vector.replicate 25 (BitVec.allOnes 64))).scr) 2 0 =
      BitVec.allOnes 64 := by decide +kernel
theorem witness_RoundConstantsFollowTheLfsr :
    roundConstants[(0 : Fin 24)].getLsbD (0 : Fin 64).val = true := by decide
theorem witness_not_lane_zero : ¬((1 : Fin 5) = 0 ∧ (0 : Fin 5) = 0) := by decide
theorem witness_RoundIsTheFiveStepsInOrder :
    State.reset.sponge .scr = Vector.replicate 200 0x00 := rfl
theorem witness_block_length : (List.replicate 136 (0x00 : Byte)).length = 136 := by decide +kernel
theorem witness_CapacityIsNeverXored :
    136 ≤ (136 : Fin 200).val ∧ (List.replicate 136 (0xFF : Byte)).length ≤ 136 ∧
    (List.replicate 135 (0xFF : Byte)).length ≤ 135 := by decide +kernel
theorem witness_PadFinalPadsThenPermutes :
    ([] : List Byte).length ≤ 135 ∧ (List.replicate 135 (0x00 : Byte)).length = 135 := by decide +kernel
theorem witness_AbsorbBlocksInOrder :
    (List.replicate 136 (0x01 : Byte)).length % 136 = 0 ∧
    (List.replicate 272 (0x02 : Byte)).length % 136 = 0 := by decide +kernel
theorem witness_SpongeOperandsOutOfDomainStop :
    (List.replicate 135 (0x00 : Byte)).length ≠ 136 ∧
    (List.replicate 137 (0x00 : Byte)).length % 136 ≠ 0 ∧
    136 ≤ (List.replicate 136 (0x00 : Byte)).length := by decide +kernel
theorem witness_short_buffer :
    State.reset.buf.length ≤ 135 ∧ fullBuffer.buf.length ≤ 135 := by decide +kernel
theorem witness_HsumIsIdempotent :
    ∀ c ∈ ([⟨3, []⟩, ⟨4, [0x78]⟩, ⟨5, []⟩] : List Command),
      decode c = .hsum ∨ (∃ p, decode c = .hash p) ∨ decode c = .illegal c := by
  simp only [List.forall_mem_cons]
  refine ⟨.inl (by decide), .inr (.inl ⟨[0x78], by decide⟩), .inr (.inr (by decide)), ?_⟩
  simp
theorem witness_EveryCommandGivesItsResponse :
    (⟨2, []⟩ : Command).isLegal = true ∧ (⟨1, [0x00]⟩ : Command).isLegal = false ∧
    (⟨1, []⟩ : Command).isLegal = true := by decide
theorem witness_StreamedDigestThroughThePort :
    ∃ s : State, s.rst = false ∧ s.respPort = none ∧ s.turns = [] ∧
      s.cmdPort = ⟨0x00000001, []⟩ ::
        ([[0x61, 0x62], [], [0x63]].map (fun p => ⟨0x00000002, p⟩) ++ [⟨0x00000003, []⟩]) :=
  ⟨{ midMessage with cmdPort := [⟨1, []⟩, ⟨2, [0x61, 0x62]⟩, ⟨2, []⟩, ⟨2, [0x63]⟩, ⟨3, []⟩] },
    rfl, rfl, rfl, rfl⟩
theorem witness_UnstableCapSamplesEither :
    (⟨4, []⟩ : Command).isLegal = true ∧
    (∃ s : State, s.selValid = false ∧ s.capStable = true ∧ s.capAccel = .highZ) ∧
    (∃ s : State, s.selValid = false ∧ s.capStable = false ∧ s.capAccel = .one) ∧
    (∃ t, step { State.reset with turns := [.drive .one] } = .next t ∧ t.capStable = false) ∧
    resetsNow { State.reset with turns := [.drive .one] } = false :=
  ⟨by decide, ⟨{ State.reset with capAccel := .highZ }, rfl, rfl, rfl⟩,
    ⟨{ State.reset with capStable := false, capAccel := .one }, rfl, rfl, rfl⟩, ⟨_, rfl, rfl⟩, rfl⟩
theorem witness_LatchSelActsOnce :
    midMessage.selValid = true ∧ (⟨4, []⟩ : Command).isLegal = true ∧
    (⟨0, []⟩ : Command).isLegal = false := by decide
theorem witness_SelectionIsFixedUntilReset :
    midMessage.selValid = true ∧ resetsNow midMessage = false ∧
    resetsNow { midMessage with turns := [.assertRst] } = true ∧
    step midMessage = .next midMessage := ⟨rfl, rfl, rfl, rfl⟩
theorem witness_SelectionIsUnobservable :
    SameToHost { midMessage with turns := [.drive .one] }
      { midMessage with sel := .accel, selValid := false, turns := [.drive .highZ] } :=
  ⟨rfl, rfl, rfl, rfl, rfl, rfl⟩

end Sys2Proof.Tests
end

/-!
PROOFS. The lane rotation of spec/00_scope.md R13.
-/
namespace Sys2Proof.Machine

/-- Ties R13's shift-and-or formula to the library's rotation, whose lemmas later proofs can cite. -/
theorem rotl64_eq_rotateLeft (v : Lane) {n : Nat} (hn : n < 64) :
    rotl64 v n = v.rotateLeft n := by
  rw [BitVec.rotateLeft_def, Nat.mod_eq_of_lt hn, rotl64]

@[simp] theorem rotl64_zero (v : Lane) : rotl64 v 0 = v := by
  have hright : v >>> 64 = 0#64 := BitVec.ushiftRight_eq_zero (Nat.le_refl 64)
  simp [rotl64, hright]

/-- The two cases are the two operands of the formula's `|`: a bit that stays below 64 comes from
the left shift, one that wraps around from the right shift. -/
theorem getLsbD_rotl64 (v : Lane) {n i : Nat} (hn : n < 64) (hi : i < 64) :
    (rotl64 v n).getLsbD ((i + n) % 64) = v.getLsbD i := by
  rw [rotl64_eq_rotateLeft v hn, BitVec.getLsbD_rotateLeft, Nat.mod_eq_of_lt hn]
  by_cases hstay : i + n < 64
  · simp [Nat.mod_eq_of_lt hstay, hstay]
  · have hwrap : (i + n) % 64 = i + n - 64 := by omega
    have hlow : i + n - 64 < n := by omega
    have hsource : 64 - n + (i + n - 64) = i := by omega
    simp [hwrap, hlow, hsource]

/-- Settles O22: the bit rule by cases on wrap-around, and the zero rotation. -/
theorem rotationMovesBits : Obligations.RotationMovesBits :=
  ⟨fun v _ _ hn hi => getLsbD_rotl64 v hn hi, rotl64_zero⟩

end Sys2Proof.Machine

/-!
PROOFS. What one step does to the context: the notion that the proofs below turn on
(spec/10_state.md R23, R36). It stands first for the checker's sake: Lean finishes the kernel checks
of the tests above before it adds an inductive type, so those checks and the proofs below do not
compete for memory.
-/
namespace Sys2Proof.Machine

/-- What one step does to CTX_S and BUF, with what makes it do so (R23, R129). -/
inductive ContextMove (s t : State) : Prop
  /-- A power-on reset. -/
  | reset (hreset : resetsNow s = true) (hctx : t.ctxS = zeroSponge) (hbuf : t.buf = [])
  /-- An accepted HRESET. -/
  | restart (hreset : resetsNow s = false) (hcmd : (acceptedNow s).map decode = some .hreset)
      (hctx : t.ctxS = zeroSponge) (hbuf : t.buf = [])
  /-- An accepted HWRITE. -/
  | write (p : List Byte) (hreset : resetsNow s = false)
      (hcmd : (acceptedNow s).map decode = some (.hwrite p))
      (hctx : t.ctxS = (writeInto s.ctxS s.buf p).1) (hbuf : t.buf = (writeInto s.ctxS s.buf p).2)
  /-- Anything else. -/
  | keep (hreset : resetsNow s = false) (hcmd : (acceptedNow s).map decode ≠ some .hreset)
      (hcmd' : ∀ p, (acceptedNow s).map decode ≠ some (.hwrite p))
      (hctx : t.ctxS = s.ctxS) (hbuf : t.buf = s.buf)

end Sys2Proof.Machine

/-!
PROOFS. A message as its full blocks and its tail, and HWRITE in closed form (spec/41_sponge.md
R120, spec/42_hasher.md R137 to R139).
-/
namespace Sys2Proof.Machine

/-! ### The full blocks of a message and its tail -/

/-- The longest front of a message that is a whole number of 136-byte blocks. -/
def fullBlocks (M : List Byte) : List Byte := M.take (136 * (M.length / 136))

/-- What a message has after its full blocks. -/
def tailOf (M : List Byte) : List Byte := M.drop (136 * (M.length / 136))

theorem fullBlocks_append_tailOf (M : List Byte) : fullBlocks M ++ tailOf M = M :=
  List.take_append_drop _ M

theorem length_fullBlocks (M : List Byte) :
    (fullBlocks M).length = 136 * (M.length / 136) := by
  simp [fullBlocks, Nat.mul_div_le]

theorem length_fullBlocks_mod (M : List Byte) : (fullBlocks M).length % 136 = 0 := by
  simp [length_fullBlocks]

theorem fullBlocks_prefix (M : List Byte) : fullBlocks M <+: M := List.take_prefix _ M

theorem length_tailOf (M : List Byte) : (tailOf M).length = M.length % 136 := by
  simp only [tailOf, List.length_drop]; omega

theorem length_tailOf_le (M : List Byte) : (tailOf M).length ≤ 135 := by
  rw [length_tailOf]; omega

theorem fullBlocks_of_short {M : List Byte} (h : M.length ≤ 135) : fullBlocks M = [] := by
  simp [fullBlocks, Nat.div_eq_of_lt (show M.length < 136 by omega)]

theorem tailOf_of_short {M : List Byte} (h : M.length ≤ 135) : tailOf M = M := by
  simp [tailOf, Nat.div_eq_of_lt (show M.length < 136 by omega)]

/-- Blocks in front of a message only add to its number of full blocks. -/
theorem div_length_append_of_blocks {W : List Byte} (hW : W.length % 136 = 0) (M : List Byte) :
    136 * ((W ++ M).length / 136) = W.length + 136 * (M.length / 136) := by
  rw [List.length_append]; omega

theorem fullBlocks_append_of_blocks {W : List Byte} (hW : W.length % 136 = 0) (M : List Byte) :
    fullBlocks (W ++ M) = W ++ fullBlocks M := by
  rw [fullBlocks, div_length_append_of_blocks hW, List.take_length_add_append, fullBlocks]

theorem tailOf_append_of_blocks {W : List Byte} (hW : W.length % 136 = 0) (M : List Byte) :
    tailOf (W ++ M) = tailOf M := by
  rw [tailOf, div_length_append_of_blocks hW, List.drop_length_add_append, tailOf]

/-- Bytes written after M extend M's tail: the full blocks of M stay as they are. -/
theorem fullBlocks_append (M p : List Byte) :
    fullBlocks (M ++ p) = fullBlocks M ++ fullBlocks (tailOf M ++ p) := by
  rw [← fullBlocks_append_of_blocks (length_fullBlocks_mod M), ← List.append_assoc,
    fullBlocks_append_tailOf]

theorem tailOf_append (M p : List Byte) : tailOf (M ++ p) = tailOf (tailOf M ++ p) := by
  rw [← tailOf_append_of_blocks (length_fullBlocks_mod M) (tailOf M ++ p), ← List.append_assoc,
    fullBlocks_append_tailOf]

/-! ### AbsorbBlocks -/

/-- R120: absorbing blocks and then more is absorbing their concatenation. -/
theorem absorbBlocksInto_append (S : Sponge) {W : List Byte} (hW : W.length % 136 = 0)
    (N : List Byte) :
    absorbBlocksInto S (W ++ N) = absorbBlocksInto (absorbBlocksInto S W) N := by
  obtain ⟨q, hq⟩ := Nat.dvd_of_mod_eq_zero hW
  have hcount : (W ++ N).length / 136 = q + N.length / 136 := by
    rw [List.length_append, hq]; omega
  have hfront : ∀ j ∈ List.range q,
      slice (W ++ N) (136 * j) (136 * j + 136) = slice W (136 * j) (136 * j + 136) := by
    intro j hj
    have := List.mem_range.mp hj
    exact slice_append_left W N _ _ (by omega)
  have hback : ∀ j, slice (W ++ N) (136 * (q + j)) (136 * (q + j) + 136) =
      slice N (136 * j) (136 * j + 136) := by
    intro j
    rw [← slice_append_right W N, hq, Nat.mul_add, Nat.add_assoc]
  have hWq : W.length / 136 = q := by omega
  rw [absorbBlocksInto, hcount, List.range_add, List.foldl_append, List.foldl_map,
    absorbBlocksInto, absorbBlocksInto, hWq]
  simp only [hback]
  exact congrArg (List.foldl _ · _) (List.foldl_ext _ _ _ fun T j hj => by rw [hfront j hj])

theorem absorbBlocksInto_cons_block (S : Sponge) {B : List Byte} (hB : B.length = 136)
    (N : List Byte) :
    absorbBlocksInto S (B ++ N) = absorbBlocksInto (absorbBlockInto S B) N := by
  rw [absorbBlocksInto_append S (by simp [hB]), absorbBlocksInto_one S B hB]

/-! ### HWRITE -/

/-- Step (b) of HWRITE absorbs the full blocks and leaves the tail, by induction on the passes. -/
theorem absorbWhole_eq (n : Nat) (S : Sponge) (p : List Byte) (h : p.length ≤ n) :
    absorbWhole n S p = (absorbBlocksInto S (fullBlocks p), tailOf p) := by
  induction n generalizing S p with
  | zero =>
    have : p = [] := List.length_eq_zero_iff.mp (by omega)
    subst this; simp [absorbWhole, fullBlocks, tailOf]
  | succ n ih =>
    by_cases hp : p.length ≥ 136
    · have hB : (p.take 136).length = 136 := by simp [hp]
      have hBmod : (p.take 136).length % 136 = 0 := by rw [hB]
      have hblocks : fullBlocks p = p.take 136 ++ fullBlocks (p.drop 136) := by
        rw [← fullBlocks_append_of_blocks hBmod, List.take_append_drop]
      have htail : tailOf p = tailOf (p.drop 136) := by
        rw [← tailOf_append_of_blocks hBmod (p.drop 136), List.take_append_drop]
      rw [absorbWhole, if_pos hp, ih _ _ (by rw [List.length_drop]; omega), slice_zero, hblocks,
        htail, absorbBlocksInto_cons_block S hB]
    · rw [absorbWhole, if_neg hp, fullBlocks_of_short (by omega), tailOf_of_short (by omega),
        absorbBlocksInto_nil]

theorem topUp_nil (S : Sponge) (p : List Byte) : topUp S [] p = (S, [], p) := rfl

theorem topUp_of_short (S : Sponge) {buf p : List Byte} (hbuf : 0 < buf.length)
    (h : buf.length + p.length ≤ 135) : topUp S buf p = (S, buf ++ p, []) := by
  have hmin : min (136 - buf.length) p.length = p.length := by omega
  simp [topUp, hbuf, hmin, slice_zero, show buf.length + p.length ≠ 136 by omega]

theorem topUp_of_full (S : Sponge) {buf p : List Byte} (hbuf : 0 < buf.length)
    (hle : buf.length ≤ 135) (h : 136 ≤ buf.length + p.length) :
    topUp S buf p = (absorbBlockInto S (buf ++ p.take (136 - buf.length)), [],
      p.drop (136 - buf.length)) := by
  have hmin : min (136 - buf.length) p.length = 136 - buf.length := by omega
  have hfull : buf.length + (136 - buf.length) = 136 := by omega
  simp [topUp, hbuf, hmin, slice_zero, hfull]

/-- R138, R139: HWRITE absorbs the full blocks of BUF ++ P and keeps the tail. The cases are those
of step (a): nothing buffered, a buffer that stays short, a buffer that becomes one block. -/
theorem writeInto_eq (S : Sponge) {buf : List Byte} (hbuf : buf.length ≤ 135) (p : List Byte) :
    writeInto S buf p = (absorbBlocksInto S (fullBlocks (buf ++ p)), tailOf (buf ++ p)) := by
  rcases Nat.eq_zero_or_pos buf.length with hnil | hpos
  · have : buf = [] := List.length_eq_zero_iff.mp hnil
    subst this
    simp [writeInto, topUp_nil, absorbWhole_eq]
  rcases Nat.lt_or_ge (buf.length + p.length) 136 with hshort | hfull
  · have hlen : (buf ++ p).length ≤ 135 := by rw [List.length_append]; omega
    simp [writeInto, topUp_of_short S hpos (show buf.length + p.length ≤ 135 by omega),
      absorbWhole, fullBlocks_of_short hlen, tailOf_of_short hlen]
  · have hB : (buf ++ p.take (136 - buf.length)).length = 136 := by simp; omega
    have hBmod : (buf ++ p.take (136 - buf.length)).length % 136 = 0 := by rw [hB]
    have hsplit : buf ++ p =
        (buf ++ p.take (136 - buf.length)) ++ p.drop (136 - buf.length) := by
      rw [List.append_assoc, List.take_append_drop]
    rw [hsplit, fullBlocks_append_of_blocks hBmod, tailOf_append_of_blocks hBmod,
      absorbBlocksInto_cons_block S hB]
    simp [writeInto, topUp_of_full S hpos hbuf hfull, absorbWhole_eq]

theorem length_writeInto_snd_le (S : Sponge) {buf : List Byte} (hbuf : buf.length ≤ 135)
    (p : List Byte) : (writeInto S buf p).2.length ≤ 135 := by
  rw [writeInto_eq S hbuf]; exact length_tailOf_le _

/-! ### The message a context holds -/

/-- R36 in the words above: BUF is the tail, CTX_S has absorbed the full blocks. -/
theorem holdsMessage_iff (s : State) (M : List Byte) :
    HoldsMessage s M ↔ s.buf = tailOf M ∧ s.ctxS = absorbBlocksInto zeroSponge (fullBlocks M) := by
  rw [HoldsMessage, slice_to_end, slice_zero, tailOf, fullBlocks]

theorem HoldsMessage.length_buf_le {s : State} {M : List Byte} (h : HoldsMessage s M) :
    s.buf.length ≤ 135 := by
  rw [((holdsMessage_iff s M).mp h).1]; exact length_tailOf_le M

/-- Only CTX_S and BUF decide which message a context holds. -/
theorem HoldsMessage.congr {s t : State} {M : List Byte} (h : HoldsMessage s M)
    (hctx : t.ctxS = s.ctxS) (hbuf : t.buf = s.buf) : HoldsMessage t M := by
  rw [HoldsMessage, hctx, hbuf]; exact h

theorem holdsMessage_nil {s : State} (hctx : s.ctxS = zeroSponge) (hbuf : s.buf = []) :
    HoldsMessage s [] := by
  rw [holdsMessage_iff, hctx, hbuf]; simp [tailOf, fullBlocks]

/-- HWRITE appends its payload to the message. -/
theorem HoldsMessage.append {s t : State} {M : List Byte} (h : HoldsMessage s M) (p : List Byte)
    (hctx : t.ctxS = (writeInto s.ctxS s.buf p).1) (hbuf : t.buf = (writeInto s.ctxS s.buf p).2) :
    HoldsMessage t (M ++ p) := by
  have hle := h.length_buf_le
  obtain ⟨htail, habs⟩ := (holdsMessage_iff s M).mp h
  rw [writeInto_eq _ hle, htail] at hctx hbuf
  rw [holdsMessage_iff, hctx, hbuf, habs, ← absorbBlocksInto_append _ (length_fullBlocks_mod M),
    ← fullBlocks_append, ← tailOf_append]
  exact ⟨rfl, rfl⟩

/-- R146: the digest HSUM computes from the context is that of the message it holds. -/
theorem HoldsMessage.squeeze_hsumScratch {s : State} {M : List Byte} (h : HoldsMessage s M) :
    squeezeFrom (hsumScratch s) = keccak256Of M := by
  obtain ⟨hbuf, hctx⟩ := h
  rw [hsumScratch, hbuf, hctx, keccak256Of]

end Sys2Proof.Machine

/-!
PROOFS. What a command does, and what a step does: the case lemmas that the invariants below are
derived from.
-/
namespace Sys2Proof.Machine

/-! ### The commands -/

@[simp] theorem exec_hreset (s : State) :
    exec .hreset s = .next (respond okResponse (resetContext (latchSel s))) := rfl

@[simp] theorem exec_hwrite (p : List Byte) (s : State) :
    exec (.hwrite p) s = .next (respond okResponse (writeContext p (latchSel s))) := rfl

@[simp] theorem exec_hsum (s : State) :
    exec .hsum s = .next (respond (digestResponse (squeezeFrom (hsumScratch s)))
      (releaseScr (latchSel s))) := rfl

@[simp] theorem exec_hash (p : List Byte) (s : State) :
    exec (.hash p) s = .next (respond (digestResponse (squeezeFrom (hashScratch p)))
      (releaseScr (latchSel s))) := rfl

@[simp] theorem exec_illegal (c : Command) (s : State) :
    exec (.illegal c) s = .next (respond illegalResponse s) := rfl

/-- What running a command can do, one case for each decoding (R128). -/
theorem exec_decode_cases {c : Command} {s t : State} (h : exec (decode c) s = .next t) :
    (decode c = .hreset ∧ t = respond okResponse (resetContext (latchSel s))) ∨
    (decode c = .hwrite c.payload ∧
      t = respond okResponse (writeContext c.payload (latchSel s))) ∨
    (decode c = .hsum ∧
      t = respond (digestResponse (squeezeFrom (hsumScratch s))) (releaseScr (latchSel s))) ∨
    (decode c = .hash c.payload ∧
      t = respond (digestResponse (squeezeFrom (hashScratch c.payload)))
        (releaseScr (latchSel s))) ∨
    (decode c = .illegal c ∧ t = respond illegalResponse s) := by
  rcases decode_cases c with hc | hc | hc | hc | hc <;>
    simp only [hc, exec_hreset, exec_hwrite, exec_hsum, exec_hash, exec_illegal,
      Host.Outcome.next.injEq] at h <;>
    simp [hc, h]

/-! ### The turn -/

@[simp] theorem nextTurn_snd_ctxS (s : State) : (nextTurn s).2.ctxS = s.ctxS := by
  simp [nextTurn_snd]
@[simp] theorem nextTurn_snd_buf (s : State) : (nextTurn s).2.buf = s.buf := by
  simp [nextTurn_snd]
@[simp] theorem nextTurn_snd_cmdPort (s : State) : (nextTurn s).2.cmdPort = s.cmdPort := by
  simp [nextTurn_snd]
@[simp] theorem nextTurn_snd_respPort (s : State) : (nextTurn s).2.respPort = s.respPort := by
  simp [nextTurn_snd]
@[simp] theorem nextTurn_snd_rst (s : State) : (nextTurn s).2.rst = s.rst := by
  simp [nextTurn_snd]

theorem step_of_block {s : State} (h : (nextTurn s).1 = .block) :
    step s = blockTurn (nextTurn s).2 := by
  unfold step; split <;> simp_all

theorem step_of_outside {s : State} (h : (nextTurn s).1 ≠ .block) :
    step s = .next (outsideTurn (nextTurn s).1 (nextTurn s).2) := by
  unfold step; split <;> simp_all

/-- A scheduled move of the outside world. -/
theorem step_of_turns {s : State} {u : Turn} {ts : List Turn} (h : s.turns = u :: ts)
    (hu : u ≠ .block) : step s = .next (outsideTurn u { s with turns := ts }) := by
  have hnext := nextTurn_cons s u ts h
  rw [step_of_outside (by rw [hnext]; exact hu), hnext]

theorem nextCommand_of_rst {s : State} (h : s.rst = true) : nextCommand s = none := by
  simp [nextCommand, h]

theorem blockTurn_of_none {s : State} (h : nextCommand s = none) :
    blockTurn s = .next (waitTurn s) := by
  simp [blockTurn, h]

theorem blockTurn_of_some {s s1 : State} {c : Command} (h : nextCommand s = some (c, s1)) :
    blockTurn s = exec (decode c) s1 := by
  simp [blockTurn, h]

theorem waitTurn_of_rst {s : State} (h : s.rst = true) : waitTurn s = powerOn s := by
  simp [waitTurn, h]

theorem waitTurn_of_released {s : State} (h : s.rst = false) : waitTurn s = s := by
  simp [waitTurn, h]

theorem resetsNow_of_block {s : State} (h : (nextTurn s).1 = .block) : resetsNow s = s.rst := by
  have hrst := nextTurn_snd_rst s
  rcases hn : nextTurn s with ⟨u, s1⟩
  simp_all [resetsNow]

/-- Outside the block's turn, only the two moves that assert `rst` are a power-on reset. -/
theorem resetsNow_iff_of_outside {s : State} (h : (nextTurn s).1 ≠ .block) :
    resetsNow s = true ↔ (nextTurn s).1 = .assertRst ∨ (nextTurn s).1 = .abortRst := by
  rcases hn : nextTurn s with ⟨u, s1⟩
  cases u <;> simp_all [resetsNow]

theorem acceptedNow_of_block {s : State} (h : (nextTurn s).1 = .block) :
    acceptedNow s = (nextCommand (nextTurn s).2).map Prod.fst := by
  rcases hn : nextTurn s with ⟨u, s1⟩
  simp_all [acceptedNow]

theorem acceptedNow_of_outside {s : State} (h : (nextTurn s).1 ≠ .block) :
    acceptedNow s = none := by
  rcases hn : nextTurn s with ⟨u, s1⟩
  cases u <;> simp_all [acceptedNow]

/-- On its turn, out of reset and with the response port free, the block accepts the head. -/
theorem acceptedNow_cons {s : State} {c : Command} {rest : List Command}
    (hturn : (nextTurn s).1 = .block) (hrst : s.rst = false) (hresp : s.respPort = none)
    (hport : s.cmdPort = c :: rest) : acceptedNow s = some c := by
  have hnext : nextCommand (nextTurn s).2 = some (c, _) :=
    nextCommand_cons (by simpa using hrst) (by simpa using hresp) (by simpa using hport)
  rw [acceptedNow_of_block hturn, hnext, Option.map_some]

end Sys2Proof.Machine

/-!
PROOFS. The invariant `Inv` is kept by every move (spec/10_state.md R24, R25, R33).
-/
namespace Sys2Proof.Machine

/-- R76, R178: OK, or ILLEGAL with a zero digest. -/
def Response.IsLegal (r : Response) : Prop :=
  r.status = 0x00 ∨ (r.status = 0x01 ∧ ∀ j : Fin 32, r.digest[j] = 0x00)

theorem okResponse_isLegal : okResponse.IsLegal := .inl rfl

theorem digestResponse_isLegal (d : Digest) : (digestResponse d).IsLegal := .inl rfl

theorem illegalResponse_isLegal : illegalResponse.IsLegal :=
  .inr ⟨rfl, fun j => zeroDigest_getElem j.val j.isLt⟩

/-- R162: ACCEL is selected only in a build that has it. -/
theorem buildAccel_of_selectBackend {build c : Bool} (h : selectBackend build c = .accel) :
    build = true := by
  cases build
  · simp [selectBackend] at h
  · rfl

theorem zeroSponge_isZero (i : Fin 200) : zeroSponge[i] = 0x00 := zeroSponge_getElem i.val i.isLt

/-! ### Each operation keeps the invariant -/

/-- The invariant does not speak of the offered commands and the schedule. -/
theorem Inv.withPorts {s : State} (h : Inv s) (cs : List Command) (ts : List Turn) :
    Inv { s with cmdPort := cs, turns := ts } :=
  ⟨h.count_legal, h.sel_built, h.response_legal, h.reset_held⟩

theorem Inv.nextTurn_snd {s : State} (h : Inv s) : Inv (nextTurn s).2 := by
  rw [Machine.nextTurn_snd]; exact h.withPorts _ _

theorem inv_powerOn (s : State) : Inv (powerOn s) where
  count_legal := by simp
  sel_built := by simp
  response_legal := by simp
  reset_held _ := ⟨zeroSponge_isZero, rfl, rfl, rfl, rfl⟩

theorem inv_reset : Inv State.reset where
  count_legal := by simp [State.reset]
  sel_built := by simp [State.reset]
  response_legal := by simp [State.reset]
  reset_held := by simp [State.reset]

section Released
variable {s : State} (h : Inv s) (hrst : s.rst = false)
include h hrst

theorem Inv.latchSel : Inv (latchSel s) where
  count_legal := by simpa using h.count_legal
  sel_built := by
    rcases latchSel_cases s with ⟨-, heq⟩ | ⟨-, heq⟩ <;> rw [heq]
    · exact h.sel_built
    · exact buildAccel_of_selectBackend
  response_legal := by simpa using h.response_legal
  reset_held := by simp [hrst]

theorem Inv.resetContext : Inv (resetContext s) where
  count_legal := by simp
  sel_built := by simpa using h.sel_built
  response_legal := by simpa using h.response_legal
  reset_held := by simp [hrst]

theorem Inv.writeContext (p : List Byte) : Inv (writeContext p s) where
  count_legal := length_writeInto_snd_le s.ctxS h.count_legal p
  sel_built := by simpa using h.sel_built
  response_legal := by simpa using h.response_legal
  reset_held := by simp [hrst]

theorem Inv.releaseScr : Inv (releaseScr s) where
  count_legal := by simpa using h.count_legal
  sel_built := by simpa using h.sel_built
  response_legal := by simpa using h.response_legal
  reset_held := by simp [hrst]

theorem Inv.respond {r : Response} (hr : r.IsLegal) : Inv (respond r s) where
  count_legal := by simpa using h.count_legal
  sel_built := by simpa using h.sel_built
  response_legal := by
    rintro r' hr'
    obtain rfl : r = r' := by simpa using hr'
    exact hr
  reset_held := by simp [hrst]

/-- A command runs out of reset and keeps the invariant. -/
theorem Inv.exec_decode {c : Command} {t : State} (ht : exec (decode c) s = .next t) : Inv t := by
  have hlatch := h.latchSel hrst
  have hrst' : (Machine.latchSel s).rst = false := by simpa using hrst
  rcases exec_decode_cases ht with ⟨-, rfl⟩ | ⟨-, rfl⟩ | ⟨-, rfl⟩ | ⟨-, rfl⟩ | ⟨-, rfl⟩
  · exact (hlatch.resetContext hrst').respond hrst' okResponse_isLegal
  · exact (hlatch.writeContext hrst' _).respond hrst' okResponse_isLegal
  · exact (hlatch.releaseScr hrst').respond hrst' (digestResponse_isLegal _)
  · exact (hlatch.releaseScr hrst').respond hrst' (digestResponse_isLegal _)
  · exact h.respond hrst illegalResponse_isLegal

end Released

theorem Inv.waitTurn {s : State} (h : Inv s) : Inv (waitTurn s) := by
  rcases hrst : s.rst with _ | _
  · rwa [waitTurn_of_released hrst]
  · rw [waitTurn_of_rst hrst]; exact inv_powerOn s

theorem Inv.take {s : State} (h : Inv s) : Inv { s with respPort := none } where
  count_legal := h.count_legal
  sel_built := h.sel_built
  response_legal := by simp
  reset_held hrst := by
    obtain ⟨hctx, hbuf, hvalid, -, hstable⟩ := h.reset_held hrst
    exact ⟨hctx, hbuf, hvalid, rfl, hstable⟩

/-- While `rst` is asserted a drive is no change that counts (R204). -/
theorem Inv.driveCap {s : State} (h : Inv s) (l : CapLevel) : Inv (driveCap l s) where
  count_legal := h.count_legal
  sel_built := h.sel_built
  response_legal := h.response_legal
  reset_held hrst := by
    have hrst' : s.rst = true := hrst
    obtain ⟨hctx, hbuf, hvalid, hresp, hstable⟩ := h.reset_held hrst'
    exact ⟨hctx, hbuf, hvalid, hresp, by simp [hstable, hrst']⟩

theorem Inv.outsideTurn {s : State} (h : Inv s) (u : Turn) : Inv (outsideTurn u s) := by
  cases u with
  | block => exact h
  | offer c => exact h.withPorts _ s.turns
  | take => exact h.take
  | drive l => exact h.driveCap l
  | assertRst => exact inv_powerOn s
  | abortRst => exact inv_powerOn _
  | releaseRst =>
    exact ⟨h.count_legal, h.sel_built, h.response_legal, by simp [Machine.outsideTurn]⟩

/-! ### The statements -/

/-- Settles O17: the three cases of a step, each by the lemma of its operation. -/
theorem everyStepKeepsTheInvariant : Obligations.EveryStepKeepsTheInvariant := by
  intro s t h hstep
  rcases step_cases hstep with ⟨c, rest, s1, -, hrst, -, -, rfl, hexec⟩ | ⟨-, -, rfl⟩ | ⟨-, rfl⟩
  · exact (h.withPorts rest s.turns.tail).exec_decode hrst hexec
  · exact h.nextTurn_snd.waitTurn
  · exact h.nextTurn_snd.outsideTurn _

/-- Settles O16: the reset state field by field, and R36's equations for the empty message. -/
theorem resetMeetsTheInvariant : Obligations.ResetMeetsTheInvariant :=
  ⟨inv_reset, holdsMessage_nil rfl rfl⟩

/-- Settles O19: 135 is below the 256 values of the register. -/
theorem bufferCountFitsItsRegister : Obligations.BufferCountFitsItsRegister := by
  intro s h
  have hle := h.count_legal
  have hcount : s.bufCnt.toNat = s.buf.length := by
    rw [State.bufCnt, BitVec.toNat_ofNat]; omega
  exact ⟨hcount, hcount ▸ hle⟩

end Sys2Proof.Machine

/-!
PROOFS. What a step does to the context, and the message the context holds (spec/10_state.md R23,
R36).
-/
namespace Sys2Proof.Machine

theorem outsideTurn_ctxS {u : Turn} (ha : u ≠ .assertRst) (hb : u ≠ .abortRst) (s : State) :
    (outsideTurn u s).ctxS = s.ctxS := by
  cases u <;> simp_all [outsideTurn]

theorem outsideTurn_buf {u : Turn} (ha : u ≠ .assertRst) (hb : u ≠ .abortRst) (s : State) :
    (outsideTurn u s).buf = s.buf := by
  cases u <;> simp_all [outsideTurn]

theorem outsideTurn_of_reset {u : Turn} (h : u = .assertRst ∨ u = .abortRst) (s : State) :
    (outsideTurn u s).ctxS = zeroSponge ∧ (outsideTurn u s).buf = [] := by
  rcases h with rfl | rfl <;> simp [outsideTurn]

/-- The block's turn that accepts a command: one case for each decoding. -/
theorem contextMove_of_exec {s s1 t : State} {c : Command}
    (hexec : exec (decode c) s1 = .next t) (hreset : resetsNow s = false)
    (hacc : acceptedNow s = some c) (hctx : s1.ctxS = s.ctxS) (hbuf : s1.buf = s.buf) :
    ContextMove s t := by
  rcases exec_decode_cases hexec with ⟨hc, rfl⟩ | ⟨hc, rfl⟩ | ⟨hc, rfl⟩ | ⟨hc, rfl⟩ | ⟨hc, rfl⟩
  · exact .restart hreset (by simp [hacc, hc]) (by simp) (by simp)
  · exact .write c.payload hreset (by simp [hacc, hc]) (by simp [hctx, hbuf])
      (by simp [hctx, hbuf])
  all_goals
    exact .keep hreset (by simp [hacc, hc]) (by simp [hacc, hc]) (by simp [hctx])
      (by simp [hbuf])

/-- Every step is one of the four moves. -/
theorem contextMove_of_step {s t : State} (h : step s = .next t) : ContextMove s t := by
  rcases step_cases h with ⟨c, rest, s1, hturn, hrst, hresp, hport, rfl, hexec⟩ |
    ⟨hturn, hnone, rfl⟩ | ⟨hturn, rfl⟩
  · exact contextMove_of_exec hexec (by rw [resetsNow_of_block hturn, hrst])
      (acceptedNow_cons hturn hrst hresp hport) rfl rfl
  · have hacc : acceptedNow s = none := by rw [acceptedNow_of_block hturn, hnone]; rfl
    have hreset := resetsNow_of_block hturn
    rcases hrst : s.rst with _ | _
    · rw [waitTurn_of_released (by simpa using hrst)]
      exact .keep (hreset.trans hrst) (by simp [hacc]) (by simp [hacc]) (by simp) (by simp)
    · rw [waitTurn_of_rst (by simpa using hrst)]
      exact .reset (hreset.trans hrst) (by simp) (by simp)
  · have hacc := acceptedNow_of_outside hturn
    have hiff := resetsNow_iff_of_outside hturn
    rcases hreset : resetsNow s with _ | _
    · obtain ⟨ha, hb⟩ := not_or.mp (mt hiff.mpr (by simp [hreset]))
      exact .keep hreset (by simp [hacc]) (by simp [hacc])
        (by simp [outsideTurn_ctxS ha hb]) (by simp [outsideTurn_buf ha hb])
    · obtain ⟨hctx, hbuf⟩ := outsideTurn_of_reset (hiff.mp hreset) (nextTurn s).2
      exact .reset hreset hctx hbuf

/-! ### The message after a step, in the same four cases -/

theorem messageAfter_of_reset {s : State} (h : resetsNow s = true) (M : List Byte) :
    messageAfter s M = [] := by
  simp [messageAfter, h]

theorem messageAfter_of_hreset {s : State} (h : resetsNow s = false)
    (hcmd : (acceptedNow s).map decode = some .hreset) (M : List Byte) :
    messageAfter s M = [] := by
  simp [messageAfter, h, hcmd]

theorem messageAfter_of_hwrite {s : State} {p : List Byte} (h : resetsNow s = false)
    (hcmd : (acceptedNow s).map decode = some (.hwrite p)) (M : List Byte) :
    messageAfter s M = M ++ p := by
  simp [messageAfter, h, hcmd]

theorem messageAfter_of_keep {s : State} (h : resetsNow s = false)
    (hcmd : (acceptedNow s).map decode ≠ some .hreset)
    (hcmd' : ∀ p, (acceptedNow s).map decode ≠ some (.hwrite p)) (M : List Byte) :
    messageAfter s M = M := by
  rw [messageAfter, if_neg (by simp [h])]
  split
  · contradiction
  · rename_i p hp; exact absurd hp (hcmd' p)
  · rfl

/-! ### The statements -/

/-- Settles O18: each move of the context by the lemma on `HoldsMessage` of its case. -/
theorem everyStepKeepsTheMessage : Obligations.EveryStepKeepsTheMessage := by
  intro s t M h hstep
  cases contextMove_of_step hstep with
  | reset hreset hctx hbuf =>
    rw [messageAfter_of_reset hreset]; exact holdsMessage_nil hctx hbuf
  | restart hreset hcmd hctx hbuf =>
    rw [messageAfter_of_hreset hreset hcmd]; exact holdsMessage_nil hctx hbuf
  | write p hreset hcmd hctx hbuf =>
    rw [messageAfter_of_hwrite hreset hcmd]; exact h.append p hctx hbuf
  | keep hreset hcmd hcmd' hctx hbuf =>
    rw [messageAfter_of_keep hreset hcmd hcmd']; exact h.congr hctx hbuf

/-- Settles O20: the same four moves; an HWRITE absorbs the full blocks of BUF ++ P. -/
theorem contextHasTwoWriters : Obligations.ContextHasTwoWriters := by
  intro s t h hstep
  cases contextMove_of_step hstep with
  | reset hreset hctx _ => exact .inr (.inl ⟨hctx ▸ zeroSponge_isZero, .inl hreset⟩)
  | restart _ hcmd hctx _ => exact .inr (.inl ⟨hctx ▸ zeroSponge_isZero, .inr hcmd⟩)
  | write p _ hcmd hctx _ =>
    rw [writeInto_eq _ h.count_legal] at hctx
    exact .inr (.inr ⟨p, fullBlocks (s.buf ++ p), hcmd, length_fullBlocks_mod _,
      fullBlocks_prefix _, hctx⟩)
  | keep _ _ _ hctx _ => exact .inl hctx

end Sys2Proof.Machine

/-!
PROOFS. The dispatcher's registers, the scratch state and `cap_accel` are not observable: every
operation takes states that are the same to a host to such states (spec/10_state.md R35,
spec/43_dispatch.md R167).
-/
namespace Sys2Proof.Machine

theorem sameToHost_latchSel {s u : State} (h : SameToHost s u) :
    SameToHost (latchSel s) (latchSel u) := by
  simpa [SameToHost] using h

theorem sameToHost_releaseScr {s u : State} (h : SameToHost s u) :
    SameToHost (releaseScr s) (releaseScr u) := h

theorem sameToHost_resetContext {s u : State} (h : SameToHost s u) :
    SameToHost (resetContext s) (resetContext u) := by
  obtain ⟨-, -, hport, hresp, hrst, hturns⟩ := h
  exact ⟨rfl, rfl, hport, hresp, hrst, hturns⟩

theorem sameToHost_writeContext {s u : State} (h : SameToHost s u) (p : List Byte) :
    SameToHost (writeContext p s) (writeContext p u) := by
  obtain ⟨hctx, hbuf, hport, hresp, hrst, hturns⟩ := h
  exact ⟨by simp [hctx, hbuf], by simp [hctx, hbuf], hport, hresp, hrst, hturns⟩

theorem sameToHost_respond {s u : State} (h : SameToHost s u) (r : Response) :
    SameToHost (respond r s) (respond r u) := by
  obtain ⟨hctx, hbuf, hport, -, hrst, hturns⟩ := h
  exact ⟨hctx, hbuf, hport, rfl, hrst, hturns⟩

theorem sameToHost_powerOn {s u : State} (h : SameToHost s u) :
    SameToHost (powerOn s) (powerOn u) := by
  obtain ⟨-, -, hport, -, -, hturns⟩ := h
  exact ⟨rfl, rfl, hport, rfl, rfl, hturns⟩

theorem sameToHost_withCmdPort {s u : State} (h : SameToHost s u) (cs : List Command) :
    SameToHost { s with cmdPort := cs } { u with cmdPort := cs } := by
  obtain ⟨hctx, hbuf, -, hresp, hrst, hturns⟩ := h
  exact ⟨hctx, hbuf, rfl, hresp, hrst, hturns⟩

/-- HSUM's digest is a function of the context alone. -/
theorem hsumScratch_eq_of_sameToHost {s u : State} (h : SameToHost s u) :
    hsumScratch s = hsumScratch u := by
  obtain ⟨hctx, hbuf, -⟩ := h
  rw [hsumScratch, hsumScratch, hctx, hbuf]

/-- Both outcomes are next states, and these are the same to a host. -/
def NextSameToHost (o o' : Host.Outcome State Fault Refusal) : Prop :=
  ∃ t v, o = .next t ∧ o' = .next v ∧ SameToHost t v

theorem nextSameToHost_next {t v : State} (h : SameToHost t v) :
    NextSameToHost (.next t) (.next v) := ⟨t, v, rfl, rfl, h⟩

/-- The latch runs on both sides, and no response reads what it selects. -/
theorem exec_decode_sameToHost {s u : State} (h : SameToHost s u) (c : Command) :
    NextSameToHost (exec (decode c) s) (exec (decode c) u) := by
  have hlatch := sameToHost_latchSel h
  rcases decode_cases c with hc | hc | hc | hc | hc <;> rw [hc]
  · exact nextSameToHost_next (sameToHost_respond (sameToHost_resetContext hlatch) _)
  · exact nextSameToHost_next (sameToHost_respond (sameToHost_writeContext hlatch _) _)
  · rw [exec_hsum, exec_hsum, hsumScratch_eq_of_sameToHost h]
    exact nextSameToHost_next (sameToHost_respond (sameToHost_releaseScr hlatch) _)
  · exact nextSameToHost_next (sameToHost_respond (sameToHost_releaseScr hlatch) _)
  · exact nextSameToHost_next (sameToHost_respond h _)

/-! ### The moves -/

/-- The block accepts the same command on both sides, or none on either. -/
theorem nextCommand_sameToHost {s u : State} (h : SameToHost s u) :
    (nextCommand s = none ∧ nextCommand u = none) ∨
      ∃ c s1 u1, nextCommand s = some (c, s1) ∧ nextCommand u = some (c, u1) ∧
        SameToHost s1 u1 := by
  obtain ⟨-, -, hport, hresp, hrst, -⟩ := id h
  rcases hs : nextCommand s with _ | ⟨c, s1⟩
  · refine .inl ⟨rfl, ?_⟩
    by_contra hne
    obtain ⟨⟨c, u1⟩, hu⟩ := Option.ne_none_iff_exists'.mp hne
    obtain ⟨rest, hrst', hresp', hport', -⟩ := nextCommand_eq_some hu
    rw [nextCommand_cons (hrst.trans hrst') (hresp.trans hresp') (hport.trans hport')] at hs
    cases hs
  · obtain ⟨rest, hrst', hresp', hport', rfl⟩ := nextCommand_eq_some hs
    exact .inr ⟨c, _, _, rfl, nextCommand_cons (hrst.symm.trans hrst') (hresp.symm.trans hresp')
      (hport.symm.trans hport'), sameToHost_withCmdPort h rest⟩

theorem sameToHost_abandonCommand {s u : State} (h : SameToHost s u) :
    SameToHost (abandonCommand s) (abandonCommand u) := by
  rcases nextCommand_sameToHost h with ⟨hs, hu⟩ | ⟨c, s1, u1, hs, hu, h1⟩
  · simpa [abandonCommand, hs, hu] using h
  · simpa [abandonCommand, hs, hu] using h1

theorem sameToHost_waitTurn {s u : State} (h : SameToHost s u) :
    SameToHost (waitTurn s) (waitTurn u) := by
  obtain ⟨-, -, -, -, hrst, -⟩ := id h
  rcases hs : s.rst with _ | _
  · rwa [waitTurn_of_released hs, waitTurn_of_released (hrst ▸ hs)]
  · rw [waitTurn_of_rst hs, waitTurn_of_rst (hrst ▸ hs)]
    exact sameToHost_powerOn h

theorem blockTurn_sameToHost {s u : State} (h : SameToHost s u) :
    NextSameToHost (blockTurn s) (blockTurn u) := by
  rcases nextCommand_sameToHost h with ⟨hs, hu⟩ | ⟨c, s1, u1, hs, hu, h1⟩
  · rw [blockTurn_of_none hs, blockTurn_of_none hu]
    exact nextSameToHost_next (sameToHost_waitTurn h)
  · rw [blockTurn_of_some hs, blockTurn_of_some hu]
    exact exec_decode_sameToHost h1 c

/-- Moves that differ at most in the level they drive are the same move or two drives. -/
theorem blind_eq_cases {m m' : Turn} (h : m.blind = m'.blind) :
    m = m' ∨ ∃ l l', m = .drive l ∧ m' = .drive l' := by
  cases m <;> cases m' <;> simp_all [Turn.blind]

theorem sameToHost_outsideTurn {s u : State} (h : SameToHost s u) {m m' : Turn}
    (hm : m.blind = m'.blind) : SameToHost (outsideTurn m s) (outsideTurn m' u) := by
  rcases blind_eq_cases hm with rfl | ⟨l, l', rfl, rfl⟩
  · obtain ⟨hctx, hbuf, hport, hresp, hrst, hturns⟩ := id h
    cases m with
    | block => exact h
    | offer c => exact ⟨hctx, hbuf, congrArg (· ++ [c]) hport, hresp, hrst, hturns⟩
    | take => exact ⟨hctx, hbuf, hport, rfl, hrst, hturns⟩
    | drive l => exact h
    | assertRst => exact sameToHost_powerOn h
    | abortRst => exact sameToHost_powerOn (sameToHost_abandonCommand h)
    | releaseRst => exact ⟨hctx, hbuf, hport, hresp, rfl, hturns⟩
  · exact h

/-- The same side moves next. Without a schedule the response port decides, and it is the same. -/
theorem nextTurn_blind_eq {s u : State} (h : SameToHost s u) :
    (nextTurn s).1.blind = (nextTurn u).1.blind := by
  obtain ⟨-, -, -, hresp, -, hturns⟩ := h
  rcases hs : s.turns with _ | ⟨m, ms⟩
  · have hu : u.turns = [] := by simpa [hs] using hturns.symm
    rw [nextTurn_nil s hs, nextTurn_nil u hu, hresp]
  · obtain ⟨m', ms', hu, hm, -⟩ : ∃ m' ms', u.turns = m' :: ms' ∧ m'.blind = m.blind ∧
        ms'.map Turn.blind = ms.map Turn.blind := by
      simpa [hs, List.map_eq_cons_iff] using hturns.symm
    rw [nextTurn_cons s m ms hs, nextTurn_cons u m' ms' hu, hm]

theorem sameToHost_nextTurn {s u : State} (h : SameToHost s u) :
    SameToHost (nextTurn s).2 (nextTurn u).2 := by
  obtain ⟨hctx, hbuf, hport, hresp, hrst, hturns⟩ := h
  rw [nextTurn_snd, nextTurn_snd]
  exact ⟨hctx, hbuf, hport, hresp, hrst, by simp [List.map_tail, hturns]⟩

theorem blind_eq_block_iff (m : Turn) : m.blind = .block ↔ m = .block := by
  cases m <;> simp [Turn.blind]

theorem step_sameToHost {s u : State} (h : SameToHost s u) :
    NextSameToHost (step s) (step u) := by
  have hblind := nextTurn_blind_eq h
  have hnext := sameToHost_nextTurn h
  have hblock : (nextTurn s).1 = .block ↔ (nextTurn u).1 = .block := by
    rw [← blind_eq_block_iff, hblind, blind_eq_block_iff]
  by_cases hs : (nextTurn s).1 = .block
  · rw [step_of_block hs, step_of_block (hblock.mp hs)]
    exact blockTurn_sameToHost hnext
  · rw [step_of_outside hs, step_of_outside (mt hblock.mpr hs)]
    exact nextSameToHost_next (sameToHost_outsideTurn hnext hblind)

theorem steps_sameToHost (n : Nat) {s u : State} (h : SameToHost s u) :
    NextSameToHost (steps n s) (steps n u) := by
  induction n generalizing s u with
  | zero => exact nextSameToHost_next h
  | succ n ih =>
    obtain ⟨t, v, hs, hu, htv⟩ := step_sameToHost h
    rw [steps_succ hs, steps_succ hu]
    exact ih htv

/-- Settles O58: one step by the simulation of each move, any number by induction. -/
theorem selectionIsUnobservable : Obligations.SelectionIsUnobservable := by
  refine ⟨fun s u t h hstep => ?_, fun n s u h => steps_sameToHost n h⟩
  obtain ⟨t', v, hs, hu, htv⟩ := step_sameToHost h
  obtain rfl : t' = t := by simpa [hs] using hstep
  exact ⟨v, hu, htv⟩

end Sys2Proof.Machine

/-!
PROOFS. The moves of the outside world and power-on reset (spec/10_state.md R34, R37,
spec/70_reset_and_hazards.md R200).
-/
namespace Sys2Proof.Machine

/-- Settles O12: each move by its own arm of `outsideTurn`. -/
theorem outsideMovesChangeOnePort : Obligations.OutsideMovesChangeOnePort := by
  intro s ts
  refine ⟨fun c h => ?_, fun h => ?_, fun l h => ?_, fun h => ?_⟩ <;>
    rw [step_of_turns h (by simp)] <;> rfl

/-- Settles O13: `State.reset` field by field. -/
theorem resetStateValues : Obligations.ResetStateValues :=
  ⟨zeroSponge_isZero, rfl, rfl, rfl, rfl, rfl⟩

/-- A block's turn while `rst` is asserted: nothing is accepted, and the state is held at its
power-on values. -/
theorem blockTurn_of_rst {s : State} (h : s.rst = true) : blockTurn s = .next (powerOn s) := by
  rw [blockTurn_of_none (nextCommand_of_rst h), waitTurn_of_rst h]

/-- Both moves of O14 are one and the same power-on reset. -/
theorem step_eq_powerOn {s : State} {ts : List Turn}
    (h : s.turns = .assertRst :: ts ∨ (s.rst = true ∧ s.turns = .block :: ts)) :
    step s = .next (powerOn { s with turns := ts }) := by
  rcases h with hturns | ⟨hrst, hturns⟩
  · exact step_of_turns hturns (by simp)
  · have hnext := nextTurn_cons s _ _ hturns
    rw [step_of_block (by rw [hnext]), hnext]
    exact blockTurn_of_rst hrst

/-- Settles O14: the state after either move is `powerOn`, whose fields the laws give. -/
theorem powerOnResetClearsTheBlock : Obligations.PowerOnResetClearsTheBlock := fun s ts h =>
  ⟨powerOn { s with turns := ts }, step_eq_powerOn h, zeroSponge_isZero, rfl, rfl, rfl, rfl, rfl,
    rfl, rfl, rfl⟩

end Sys2Proof.Machine

/-!
PROOFS. The byte view and the lane view of a sponge state (spec/10_state.md R21), and the capacity
bytes that nothing is XORed into (R22, spec/41_sponge.md R111).
-/
namespace Sys2Proof.Machine

/-- Lane (x,y) is LE64 of the eight state bytes from 8(x+5y). -/
theorem laneAt_lanes (S : Sponge) (x y : Fin 5) :
    laneAt (lanes S) x y =
      le64 (Vector.ofFn fun j => S[8 * (x.val + 5 * y.val) + j.val]) :=
  lanes_getElem S (x.val + 5 * y.val) (by omega)

/-- One more byte at the low end. -/
theorem toNat_append_byte {m : Nat} (hi : BitVec m) (lo : Byte) :
    (hi ++ lo).toNat = hi.toNat * 2 ^ 8 + lo.toNat := by
  rw [BitVec.toNat_append, ← Nat.shiftLeft_add_eq_or_of_lt lo.isLt, Nat.shiftLeft_eq]

/-- R12: LE64 gives byte j the weight 2^(8j). -/
theorem le64_toNat (b : Vector Byte 8) :
    (le64 b).toNat = ∑ j : Fin 8, b[j.val].toNat * 2 ^ (8 * j.val) := by
  rw [Fin.sum_univ_eight]
  simp only [le64, toNat_append_byte, Fin.isValue, Fin.val_zero, Fin.val_one, Fin.val_two]
  change _ = _ + b[3].toNat * 2 ^ 24 + b[4].toNat * 2 ^ 32 + b[5].toNat * 2 ^ 40 +
    b[6].toNat * 2 ^ 48 + b[7].toNat * 2 ^ 56
  ring

theorem spongeOf_lanes (S : Sponge) : spongeOf (lanes S) = S := by
  apply sponge_ext
  intro i
  have hbyte : 8 * (i.val / 8) + i.val % 8 = i.val := Nat.div_add_mod i.val 8
  simp [laneByte_le64, Nat.mod_lt, hbyte]

/-- Lane by lane, and bit by bit within a lane: bit k is bit k mod 8 of byte k / 8. -/
theorem lanes_spongeOf (A : Lanes) : lanes (spongeOf A) = A := by
  apply Vector.ext
  intro w hw
  apply BitVec.eq_of_getLsbD_eq
  intro k hk
  have hlane : (8 * w + k / 8) / 8 = w := by omega
  have hbyte : (8 * w + k / 8) % 8 = k / 8 := by omega
  have hbit : 8 * (k / 8) + k % 8 = k := Nat.div_add_mod k 8
  rw [lanes_getElem _ _ hw, le64_getLsbD _ _ hk]
  simp only [Vector.getElem_ofFn, spongeOf_getElem, laneByte_getLsbD, hlane, hbyte, hbit,
    Nat.mod_lt k (Nat.succ_pos 7), decide_true, Bool.true_and]

/-- Settles O21: bytes of a lane, its value, and the two round trips. -/
theorem laneAndByteViewsAgree : Obligations.LaneAndByteViewsAgree := by
  refine ⟨fun S x y j => ?_, fun S x y => ?_, spongeOf_lanes, lanes_spongeOf⟩
  · rw [laneAt_lanes]
    exact (laneByte_le64 _ j.val j.isLt).trans (by simp)
  · rw [laneAt_lanes, le64_toNat]
    simp

/-- Past the end of the bytes nothing is XORed. -/
theorem xorBytes_getElem_of_le (S : Sponge) {b : List Byte} {i : Nat} (h : i < 200)
    (hb : b.length ≤ i) : (xorBytes S b)[i] = S[i] := by
  rw [xorBytes_getElem, List.getD_eq_default _ _ hb]
  exact BitVec.xor_zero

/-- The pad's two bytes lie at most at 135. -/
theorem padTail_getElem_of_le (S : Sponge) {T : List Byte} {i : Nat} (h : i < 200)
    (hi : 136 ≤ i) (hT : T.length ≤ 135) : (padTail S T)[i] = S[i] := by
  rw [padTail, xorByteAt_getElem, if_neg (by omega), xorByteAt_getElem, if_neg (by omega),
    xorBytes_getElem_of_le S h (by omega)]

/-- Settles O36: both lengths end below byte 136. -/
theorem capacityIsNeverXored : Obligations.CapacityIsNeverXored := fun S _ i hi =>
  ⟨fun hb => xorBytes_getElem_of_le S i.isLt (hb.trans hi),
    fun hT => padTail_getElem_of_le S i.isLt hi hT⟩

end Sys2Proof.Machine

/-!
PROOFS. Streaming a message through the command port (spec/20_memory.md R52, spec/42_hasher.md
R151): an unscheduled block accepts the head of the port, and the host then takes its response.
-/
namespace Sys2Proof.Machine

/-- A block that a host streams to: out of reset, no response pending, nothing scheduled. -/
structure Idle (s : State) : Prop where
  released : s.rst = false
  respFree : s.respPort = none
  unscheduled : s.turns = []

theorem decode_hreset_word : decode ⟨0x00000001, []⟩ = .hreset := by
  simp [decode, rsvdField, opcField]

theorem decode_hwrite_word (p : List Byte) : decode ⟨0x00000002, p⟩ = .hwrite p := by
  simp [decode, rsvdField, opcField]

theorem decode_hsum_word : decode ⟨0x00000003, []⟩ = .hsum := by
  simp [decode, rsvdField, opcField]

theorem step_of_idle {s : State} (h : Idle s) {c : Command} {rest : List Command}
    (hport : s.cmdPort = c :: rest) :
    step s = exec (decode c) { s with cmdPort := rest } := by
  have hnext := nextTurn_nil s h.unscheduled
  rw [h.respFree] at hnext
  rw [step_of_block (by rw [hnext]; rfl), hnext]
  exact blockTurn_of_some (nextCommand_cons h.released h.respFree hport)

theorem step_takes_response {s : State} (hturns : s.turns = []) (hresp : s.respPort.isSome = true) :
    step s = .next { s with respPort := none } := by
  have hnext := nextTurn_nil s hturns
  rw [if_pos hresp] at hnext
  rw [step_of_outside (by rw [hnext]; simp), hnext]
  rfl

/-- Two steps: the head of the port runs, and its response is taken. -/
theorem steps_run_and_take {s t : State} (h : Idle s) {c : Command} {rest : List Command}
    (hport : s.cmdPort = c :: rest)
    (hexec : exec (decode c) { s with cmdPort := rest } = .next t) (hturns : t.turns = [])
    (hresp : t.respPort.isSome = true) (n : Nat) :
    steps (n + 2) s = steps n { t with respPort := none } := by
  rw [steps_succ ((step_of_idle h hport).trans hexec),
    steps_succ (step_takes_response hturns hresp)]

/-- The commands that stream the chunks and then ask for the digest (R66, R68). -/
def streamCommands (chunks : List (List Byte)) : List Command :=
  chunks.map (fun p => ⟨0x00000002, p⟩) ++ [⟨0x00000003, []⟩]

/-- An idle block that holds M, with chunks and HSUM offered, ends with the digest of M and the
chunks. By induction on the chunks: each one is appended to the message in two steps. -/
theorem steps_streamCommands {s : State} {M : List Byte} (chunks : List (List Byte)) (h : Idle s)
    (hM : HoldsMessage s M) (hport : s.cmdPort = streamCommands chunks) :
    ∃ t, steps (2 * chunks.length + 1) s = .next t ∧
      t.respPort = some (digestResponse (keccak256Of (M ++ chunks.flatten))) ∧
      t.cmdPort = [] := by
  induction chunks generalizing s M with
  | nil =>
    have hstep := step_of_idle h hport
    rw [decode_hsum_word, exec_hsum] at hstep
    refine ⟨_, steps_succ hstep, ?_, by simp⟩
    have hM' : HoldsMessage { s with cmdPort := [] } M := hM
    simp [hM'.squeeze_hsumScratch]
  | cons p chunks ih =>
    have hexec := exec_hwrite p { s with cmdPort := streamCommands chunks }
    rw [← decode_hwrite_word p] at hexec
    rw [List.length_cons, Nat.mul_add, Nat.add_right_comm,
      steps_run_and_take h hport hexec (by simpa using h.unscheduled) (by simp)]
    obtain ⟨t, hsteps, hresp, hempty⟩ := ih (M := M ++ p)
      (s := { respond okResponse (writeContext p (latchSel { s with
        cmdPort := streamCommands chunks })) with respPort := none })
      ⟨by simpa using h.released, rfl, by simpa using h.unscheduled⟩
      (hM.append p (by simp) (by simp)) (by simp)
    exact ⟨t, hsteps, by simpa using hresp, hempty⟩

/-- Settles O52: HRESET and its take leave an idle block that holds the empty message. -/
theorem streamedDigestThroughThePort : Obligations.StreamedDigestThroughThePort := by
  intro s chunks hrst hresp hturns hport
  have hidle : Idle s := ⟨hrst, hresp, hturns⟩
  have hexec := exec_hreset { s with cmdPort := streamCommands chunks }
  rw [← decode_hreset_word] at hexec
  rw [show 2 * chunks.length + 3 = 2 * chunks.length + 1 + 2 by omega,
    steps_run_and_take hidle hport hexec (by simpa using hturns) (by simp)]
  exact steps_streamCommands (M := []) chunks
    ⟨by simpa using hrst, rfl, by simpa using hturns⟩ (holdsMessage_nil rfl rfl) (by simp)

end Sys2Proof.Machine

/-!
PROOFS. The command port and the response port across a step (spec/20_memory.md R52,
spec/60_exceptions.md R182): what is accepted, what stays offered, and how a pending response goes.
-/
namespace Sys2Proof.Machine

/-! ### Whose turn it is -/

/-- The turn is the first scheduled one; without a schedule it is the host's take or the block's. -/
theorem nextTurn_fst_cases (s : State) :
    (∃ ts, s.turns = (nextTurn s).1 :: ts) ∨
      (s.turns = [] ∧ ((nextTurn s).1 = .take ∨ (nextTurn s).1 = .block)) := by
  rcases hs : s.turns with _ | ⟨u, ts⟩
  · refine .inr ⟨rfl, ?_⟩
    rw [nextTurn_nil s hs]
    cases s.respPort <;> simp
  · exact .inl ⟨ts, by rw [nextTurn_cons s u ts hs]⟩

/-- A move that no empty schedule gives is a scheduled one. -/
theorem turns_eq_cons_of_nextTurn {s : State} {u : Turn} (h : (nextTurn s).1 = u)
    (htake : u ≠ .take) (hblock : u ≠ .block) : ∃ ts, s.turns = u :: ts := by
  subst h
  rcases nextTurn_fst_cases s with hsched | ⟨-, hu | hu⟩
  · exact hsched
  · exact absurd hu htake
  · exact absurd hu hblock

theorem turns_cases_of_nextTurn_take {s : State} (h : (nextTurn s).1 = .take) :
    s.turns = [] ∨ ∃ ts, s.turns = .take :: ts := by
  rcases nextTurn_fst_cases s with hsched | ⟨hnil, -⟩
  · exact .inr (h ▸ hsched)
  · exact .inl hnil

/-! ### The ports after each kind of move -/

/-- A command gives its response and leaves the commands behind it. -/
theorem exec_decode_ports {c : Command} {s t : State} (h : exec (decode c) s = .next t) :
    (∃ r, t.respPort = some r) ∧ t.cmdPort = s.cmdPort := by
  rcases exec_decode_cases h with ⟨-, rfl⟩ | ⟨-, rfl⟩ | ⟨-, rfl⟩ | ⟨-, rfl⟩ | ⟨-, rfl⟩ <;> simp

theorem waitTurn_cmdPort (s : State) : (waitTurn s).cmdPort = s.cmdPort := by
  rcases hrst : s.rst with _ | _
  · rw [waitTurn_of_released hrst]
  · rw [waitTurn_of_rst hrst, powerOn_cmdPort]

/-- R182: the command in progress, the one the block would accept, is gone; without one nothing
is. -/
theorem abandonCommand_cmdPort_cases (s : State) :
    (abandonCommand s).cmdPort = s.cmdPort ∨
      ∃ c, s.rst = false ∧ s.respPort = none ∧ s.cmdPort = c :: (abandonCommand s).cmdPort := by
  rcases hn : nextCommand s with _ | ⟨c, s1⟩
  · exact .inl (by simp [abandonCommand, hn])
  · obtain ⟨rest, hrst, hresp, hport, rfl⟩ := nextCommand_eq_some hn
    exact .inr ⟨c, hrst, hresp, by simp [abandonCommand, hn, hport]⟩

/-- What a move of the outside world does to the offered commands. -/
theorem outsideTurn_cmdPort_cases (u : Turn) (s : State) :
    (outsideTurn u s).cmdPort = s.cmdPort ∨
      (∃ c, u = .offer c ∧ (outsideTurn u s).cmdPort = s.cmdPort ++ [c]) ∨
      (u = .abortRst ∧ ∃ c, s.rst = false ∧ s.respPort = none ∧
        s.cmdPort = c :: (outsideTurn u s).cmdPort) := by
  cases u with
  | offer c => exact .inr (.inl ⟨c, rfl, rfl⟩)
  | abortRst => exact (abandonCommand_cmdPort_cases s).imp_right fun h => .inr ⟨rfl, h⟩
  | block | take | drive l | assertRst | releaseRst => exact .inl rfl

/-- Only a take and the two moves that assert `rst` touch the response port. -/
theorem outsideTurn_respPort_cases (u : Turn) (s : State) :
    (outsideTurn u s).respPort = s.respPort ∨ u = .take ∨
      ((u = .assertRst ∨ u = .abortRst) ∧ (outsideTurn u s).respPort = none) := by
  cases u with
  | take => exact .inr (.inl rfl)
  | assertRst => exact .inr (.inr ⟨.inl rfl, rfl⟩)
  | abortRst => exact .inr (.inr ⟨.inr rfl, rfl⟩)
  | block | offer c | drive l | releaseRst => exact .inl rfl

/-! ### The statements -/

/-- Settles O7: with and without a schedule the turn is the block's, and it accepts the head. -/
theorem stepRunsDecodedCommand : Obligations.StepRunsDecodedCommand := by
  intro s c rest hrst hresp hport
  refine ⟨fun hturns => step_of_idle ⟨hrst, hresp, hturns⟩ hport, fun ts hturns => ?_⟩
  have hnext := nextTurn_cons s _ _ hturns
  rw [step_of_block (by rw [hnext]), hnext]
  exact blockTurn_of_some (nextCommand_cons hrst hresp hport)

/-- Settles O10: a pending response excludes an accepted command; a block that waits keeps the
response unless `rst` is asserted, and of the outside moves only a take and a reset touch it. -/
theorem pendingResponseIsNeverDropped : Obligations.PendingResponseIsNeverDropped := by
  intro s t r hr hstep
  rcases step_cases hstep with ⟨c, rest, s1, -, -, hresp, -⟩ | ⟨hturn, -, rfl⟩ | ⟨hturn, rfl⟩
  · simp [hr] at hresp
  · have hreset := resetsNow_of_block hturn
    rcases hrst : s.rst with _ | _
    · rw [waitTurn_of_released (by simpa using hrst)]
      exact .inl (by simpa using hr)
    · rw [waitTurn_of_rst (by simpa using hrst)]
      exact .inr (.inr ⟨hreset.trans hrst, powerOn_respPort _⟩)
  · rcases outsideTurn_respPort_cases (nextTurn s).1 (nextTurn s).2 with hkeep | htake | ⟨hu, hnone⟩
    · exact .inl (by simpa [hr] using hkeep)
    · refine .inr (.inl ⟨turns_cases_of_nextTurn_take htake, ?_⟩)
      rw [htake, nextTurn_snd]
      rfl
    · exact .inr (.inr ⟨(resetsNow_iff_of_outside hturn).mpr hu, hnone⟩)

/-- Settles O11: a block's turn accepts the head or keeps the port; the outside moves that change
the port are scheduled ones. -/
theorem commandsAreAcceptedInOrder : Obligations.CommandsAreAcceptedInOrder := by
  intro s t hstep
  rcases step_cases hstep with ⟨c, rest, s1, hturn, hrst, hresp, hport, rfl, hexec⟩ |
    ⟨hturn, hnone, rfl⟩ | ⟨hturn, rfl⟩
  · obtain ⟨hanswer, hrest⟩ := exec_decode_ports hexec
    exact .inl ⟨c, acceptedNow_cons hturn hrst hresp hport, by rw [hrest, hport], hresp, hrst,
      hanswer⟩
  · refine .inr ⟨by rw [acceptedNow_of_block hturn, hnone]; rfl, .inl ?_⟩
    rw [waitTurn_cmdPort, nextTurn_snd_cmdPort]
  · refine .inr ⟨acceptedNow_of_outside hturn, ?_⟩
    rcases outsideTurn_cmdPort_cases (nextTurn s).1 (nextTurn s).2 with
      hkeep | ⟨c, hu, hoffer⟩ | ⟨hu, c, hrst, hresp, hport⟩
    · exact .inl (by simpa using hkeep)
    · obtain ⟨ts, hts⟩ := turns_eq_cons_of_nextTurn hu (by simp) (by simp)
      exact .inr (.inl ⟨c, ts, hts, by simpa using hoffer⟩)
    · obtain ⟨ts, hts⟩ := turns_eq_cons_of_nextTurn hu (by simp) (by simp)
      exact .inr (.inr ⟨c, ts, hts, by simpa using hrst, by simpa using hresp,
        by simpa using hport⟩)

end Sys2Proof.Machine

/-!
PROOFS. Absorption by 64-bit words (spec/20_memory.md R47, R51).
-/
namespace Sys2Proof.Machine

/-- LE64 places bytes side by side, so it passes through a bytewise XOR. -/
theorem le64_xor (f g : Fin 8 → Byte) :
    le64 (Vector.ofFn fun j => f j ^^^ g j) = le64 (Vector.ofFn f) ^^^ le64 (Vector.ofFn g) := by
  apply BitVec.eq_of_getLsbD_eq
  intro k hk
  rw [BitVec.getLsbD_xor, le64_getLsbD _ _ hk, le64_getLsbD _ _ hk, le64_getLsbD _ _ hk]
  simp

/-- Settles O35: a lane below 17 lies in the block whole, and the other eight lie past its end. -/
theorem absorptionByWordsAgrees : Obligations.AbsorptionByWordsAgrees := by
  intro S b hb w
  simp only [Fin.getElem_fin, lanes_getElem]
  split
  next hblock =>
    have hbyte (j : Fin 8) : (xorBytes S b)[8 * w.val + j.val] =
        S[8 * w.val + j.val] ^^^ b[8 * w.val + j.val] := by
      rw [xorBytes_getElem, List.getD_eq_getElem]
    simp only [hbyte, le64_xor]
  next hpast =>
    have hbyte (j : Fin 8) : (xorBytes S b)[8 * w.val + j.val] = S[8 * w.val + j.val] :=
      xorBytes_getElem_of_le S _ (by omega)
    simp only [hbyte]

end Sys2Proof.Machine

/-!
PROOFS. The command encoding (spec/30_encoding.md): the two fields and the four bytes of a command
word (R66), the decoder as a reading of whole words (R68, R69), and the transaction as bytes (R75).
-/
namespace Sys2Proof.Machine

/-! ### The command word and its fields -/

@[simp] theorem rsvdField_append (rsvd : BitVec 24) (opc : BitVec 8) :
    rsvdField (rsvd ++ opc) = rsvd :=
  BitVec.extractLsb'_append_eq_left

@[simp] theorem opcField_append (rsvd : BitVec 24) (opc : BitVec 8) :
    opcField (rsvd ++ opc) = opc :=
  BitVec.extractLsb'_append_eq_right

theorem rsvdField_append_opcField (w : Word) : rsvdField w ++ opcField w = w :=
  (BitVec.extractLsb'_append_extractLsb'_eq_extractLsb' rfl).trans BitVec.extractLsb'_eq_self

/-- R69 read on the two fields of a word. -/
theorem decode_append (rsvd : BitVec 24) (opc : BitVec 8) (p : List Byte) :
    decode ⟨rsvd ++ opc, p⟩ =
      if rsvd ≠ 0 then .illegal ⟨rsvd ++ opc, p⟩
      else if opc = 0x01 then (if p.length ≠ 0 then .illegal ⟨rsvd ++ opc, p⟩ else .hreset)
      else if opc = 0x02 then .hwrite p
      else if opc = 0x03 then (if p.length ≠ 0 then .illegal ⟨rsvd ++ opc, p⟩ else .hsum)
      else if opc = 0x04 then .hash p
      else .illegal ⟨rsvd ++ opc, p⟩ := by
  simp only [decode, rsvdField_append, opcField_append]

/-! ### Which commands are legal, and what they decode to -/

theorem decode_hash_word (p : List Byte) : decode ⟨0x00000004, p⟩ = .hash p := by
  simp [decode, rsvdField, opcField]

/-- R68, R72: the legal commands by their words and payloads, and the rest. -/
theorem command_cases (c : Command) :
    c = ⟨0x00000001, []⟩ ∨ (∃ p, c = ⟨0x00000002, p⟩) ∨ c = ⟨0x00000003, []⟩ ∨
      (∃ p, c = ⟨0x00000004, p⟩) ∨ c.isLegal = false := by
  obtain ⟨w, p⟩ := c
  rcases hlegal : Command.isLegal ⟨w, p⟩ with _ | _
  · simp
  · simp only [Command.isLegal, Bool.or_eq_true, Bool.and_eq_true, beq_iff_eq,
      List.isEmpty_iff] at hlegal
    rcases hlegal with (rfl | rfl) | ⟨rfl | rfl, rfl⟩ <;> simp

/-- R69 decodes by fields what `Command.isLegal` reads off the whole word: a word with RSVD = 0 and
one of the four opcodes is one of the four words. -/
theorem decode_of_not_isLegal {c : Command} (h : c.isLegal = false) : decode c = .illegal c := by
  obtain ⟨w, p⟩ := c
  obtain ⟨rsvd, opc, rfl⟩ : ∃ rsvd opc, w = rsvd ++ opc :=
    ⟨_, _, (rsvdField_append_opcField w).symm⟩
  rw [decode_append]
  split_ifs with hrsvd h1 hp h2 h3 hp h4 <;> simp_all [Command.isLegal]

theorem not_isLegal_of_toNat {w : Word} (h : w.toNat = 0x00 ∨ 0x05 ≤ w.toNat) (p : List Byte) :
    Command.isLegal ⟨w, p⟩ = false := by
  have hne (k : Word) (hk : 1 ≤ k.toNat ∧ k.toNat ≤ 4) : w ≠ k := by
    rintro rfl
    omega
  simp [Command.isLegal, hne]

theorem not_isLegal_of_payload {w : Word} (h : w = 0x00000001 ∨ w = 0x00000003) {p : List Byte}
    (hp : p ≠ []) : Command.isLegal ⟨w, p⟩ = false := by
  rcases h with rfl | rfl <;> simp [Command.isLegal, hp]

/-! ### Encode and decode -/

theorem encode_decode (c : Command) : encode (decode c) = some c := by
  rcases command_cases c with rfl | ⟨p, rfl⟩ | rfl | ⟨p, rfl⟩ | hillegal
  · rw [decode_hreset_word, encode]
  · rw [decode_hwrite_word, encode]
  · rw [decode_hsum_word, encode]
  · rw [decode_hash_word, encode]
  · rw [decode_of_not_isLegal hillegal, encode]

theorem decode_of_encode {i : Instr} {c : Command} (hwf : i.wellFormed = true)
    (h : encode i = some c) : decode c = i := by
  cases i <;> cases h
  case hreset => exact decode_hreset_word
  case hwrite p => exact decode_hwrite_word p
  case hsum => exact decode_hsum_word
  case hash p => exact decode_hash_word p
  case illegal => exact decode_of_not_isLegal (by simpa [Instr.wellFormed] using hwf)

theorem wellFormed_decode (c : Command) : (decode c).wellFormed = true := by
  rcases command_cases c with rfl | ⟨p, rfl⟩ | rfl | ⟨p, rfl⟩ | hillegal
  · rw [decode_hreset_word, Instr.wellFormed]
  · rw [decode_hwrite_word, Instr.wellFormed]
  · rw [decode_hsum_word, Instr.wellFormed]
  · rw [decode_hash_word, Instr.wellFormed]
  · rw [decode_of_not_isLegal hillegal, Instr.wellFormed, hillegal, Bool.not_false]

theorem isSome_encode (i : Instr) : (encode i).isSome = i.isCommand := by
  cases i <;> rfl

theorem isCommand_decode (c : Command) : (decode c).isCommand = true := by
  rw [← isSome_encode, encode_decode, Option.isSome_some]

/-! ### The bytes of a transaction -/

theorem wordOfBytes_wordByte (w : Word) :
    wordOfBytes (wordByte w 0) (wordByte w 1) (wordByte w 2) (wordByte w 3) = w := by
  have h32 : wordByte w 3 ++ wordByte w 2 = w.extractLsb' 16 16 :=
    BitVec.extractLsb'_append_extractLsb'_eq_extractLsb' rfl
  have h321 : w.extractLsb' 16 16 ++ wordByte w 1 = w.extractLsb' 8 24 :=
    BitVec.extractLsb'_append_extractLsb'_eq_extractLsb' rfl
  have h3210 : w.extractLsb' 8 24 ++ wordByte w 0 = w := rsvdField_append_opcField w
  rw [wordOfBytes, h32, h321, h3210]

theorem commandBytes_wordOfBytes (b0 b1 b2 b3 : Byte) (p : List Byte) :
    commandBytes ⟨wordOfBytes b0 b1 b2 b3, p⟩ = b0 :: b1 :: b2 :: b3 :: p := by
  have h0 : wordByte (wordOfBytes b0 b1 b2 b3) 0 = b0 := BitVec.extractLsb'_append_eq_right
  have h1 : wordByte (wordOfBytes b0 b1 b2 b3) 1 = b1 :=
    (BitVec.extractLsb'_append_eq_of_le (by decide)).trans BitVec.extractLsb'_append_eq_right
  have h2 : wordByte (wordOfBytes b0 b1 b2 b3) 2 = b2 :=
    (BitVec.extractLsb'_append_eq_of_le (by decide)).trans <|
      (BitVec.extractLsb'_append_eq_of_le (by decide)).trans BitVec.extractLsb'_append_eq_right
  have h3 : wordByte (wordOfBytes b0 b1 b2 b3) 3 = b3 :=
    (BitVec.extractLsb'_append_eq_of_le (by decide)).trans <|
      (BitVec.extractLsb'_append_eq_of_le (by decide)).trans BitVec.extractLsb'_append_eq_left
  simp [commandBytes, h0, h1, h2, h3]

@[simp] theorem commandOfBytes_commandBytes (c : Command) :
    commandOfBytes (commandBytes c) = .ok c :=
  congrArg (fun w => Except.ok (Command.mk w c.payload)) (wordOfBytes_wordByte c.cmd)

theorem length_commandBytes (c : Command) : (commandBytes c).length = 4 + c.payload.length := by
  rw [commandBytes, List.length_append]
  rfl

@[simp] theorem decodeBytes_commandBytes (c : Command) :
    decodeBytes (commandBytes c) = .ok (decode c) := by
  rw [decodeBytes, commandOfBytes_commandBytes]
  rfl

/-- R75: a byte sequence is too short for a command word, or it is one command's bytes. -/
theorem bytes_cases (bs : List Byte) :
    (bs.length < 4 ∧ decodeBytes bs = .error (.shortCommandWord bs.length)) ∨
      ∃ c, bs = commandBytes c := by
  match bs with
  | [] | [_] | [_, _] | [_, _, _] => exact .inl ⟨by simp, rfl⟩
  | b0 :: b1 :: b2 :: b3 :: p =>
    exact .inr ⟨_, (commandBytes_wordOfBytes b0 b1 b2 b3 p).symm⟩

theorem encodeBytes_decode (c : Command) : encodeBytes (decode c) = some (commandBytes c) := by
  rw [encodeBytes, encode_decode, Option.map_some]

/-- A 32-bit table word is sent as the command word alone. -/
theorem tableBytes_eq_commandBytes (w : Word) : tableBytes 32 w.toNat = commandBytes ⟨w, []⟩ := by
  have hbyte (k : Nat) : BitVec.ofNat 8 ((w.toNat % 2 ^ 32) >>> (8 * k)) = wordByte w k := by
    rw [Nat.mod_eq_of_lt w.isLt]
    rfl
  simp only [tableBytes, hbyte]
  rfl

theorem tableCommand_word (w : Word) : tableCommand 32 w.toNat = ⟨w, []⟩ := by
  simp [tableCommand, tableBytes_eq_commandBytes]

/-! ### Running a decoded command -/

theorem exec_decode_of_not_isLegal {c : Command} (h : c.isLegal = false) (s : State) :
    exec (decode c) s = .next (respond illegalResponse s) := by
  rw [decode_of_not_isLegal h, exec_illegal]

theorem zeroDigest_isZero (j : Fin 32) : zeroDigest[j] = 0x00 := by
  simp [zeroDigest]

/-- The block's next step after `withCommand` accepts the command it placed. -/
theorem step_withCommand (c : Command) (s : State) :
    step (withCommand c s) = exec (decode c) { s with respPort := none, rst := false } := by
  have hnext := nextTurn_cons (withCommand c s) .block s.turns rfl
  rw [step_of_block (by rw [hnext]), hnext]
  exact blockTurn_of_some (nextCommand_cons rfl rfl rfl)

/-! ### The statements -/

/-- Settles O5: every byte sequence that decodes is one command's bytes, so the round trip on bytes
is the one on commands. -/
theorem byteTransactionRoundTrip : Obligations.ByteTransactionRoundTrip := by
  refine ⟨fun i hwf hcmd => ?_, fun bs i h => ?_⟩
  · obtain ⟨c, hc⟩ : ∃ c, encode i = some c := by
      rwa [← isSome_encode, Option.isSome_iff_exists] at hcmd
    have hi : decode c = i := decode_of_encode hwf hc
    subst hi
    exact ⟨c, commandBytes c, hc, encodeBytes_decode c, length_commandBytes c,
      decodeBytes_commandBytes c⟩
  · rcases bytes_cases bs with ⟨-, hshort⟩ | ⟨c, rfl⟩
    · rw [hshort] at h
      cases h
    · rw [decodeBytes_commandBytes] at h
      cases h
      exact encodeBytes_decode c

/-- Settles O2: the decoder read on the two fields, opcode by opcode. -/
theorem decoderFollowsOpcodeMap : Obligations.DecoderFollowsOpcodeMap := by
  refine ⟨fun rsvd opc p => ⟨fun hrsvd => ?_, fun hrsvd =>
    ⟨fun h1 => ?_, fun h2 => ?_, fun h3 => ?_, fun h4 => ?_, fun hopc => ?_⟩⟩,
    fun w => ⟨_, _, (rsvdField_append_opcField w).symm⟩⟩
  · rw [decode_append, if_pos hrsvd]
  · rw [decode_append, if_neg (not_not.mpr hrsvd), if_pos h1]
  · rw [decode_append]
    simp [hrsvd, h2]
  · rw [decode_append]
    simp [hrsvd, h3]
  · rw [decode_append]
    simp [hrsvd, h4]
  · have hword : (rsvd ++ opc).toNat = opc.toNat := by simp [toNat_append_byte, hrsvd]
    have hreserved : opc.toNat = 0x00 ∨ 0x05 ≤ opc.toNat := hopc.imp_left (congrArg BitVec.toNat)
    exact decode_of_not_isLegal (not_isLegal_of_toNat (hword ▸ hreserved) p)

/-- Settles O3: the three kinds of command are not legal, so each decodes to ILLEGAL. -/
theorem illegalCommandsChangeNothing : Obligations.IllegalCommandsChangeNothing := by
  intro s w p
  refine ⟨fun _ hopc => exec_decode_of_not_isLegal (not_isLegal_of_toNat hopc p) s,
    fun hrsvd => exec_decode_of_not_isLegal (not_isLegal_of_toNat (.inr (by omega)) p) s,
    fun hw hp => exec_decode_of_not_isLegal (not_isLegal_of_payload hw hp) s, ?_, ?_⟩
  · rintro rfl
    exact decode_hwrite_word p
  · rintro rfl
    exact decode_hash_word p

/-- Settles O4: the round trips of the encoding layer above. -/
theorem decodeEncodeAgree : Obligations.DecodeEncodeAgree :=
  ⟨fun _ _ => decode_of_encode,
    fun c => ⟨encode_decode c, wellFormed_decode c, isCommand_decode c⟩, isSome_encode⟩

/-- Settles O50: each of the four legal commands, and any other one. -/
theorem everyCommandGivesItsResponse : Obligations.EveryCommandGivesItsResponse := by
  intro s c
  rcases command_cases c with rfl | ⟨p, rfl⟩ | rfl | ⟨p, rfl⟩ | hillegal
  · rw [decode_hreset_word, exec_hreset]
    exact ⟨_, okResponse, rfl, rfl, fun _ => rfl, by simp [Command.isLegal],
      fun _ => zeroDigest_isZero⟩
  · rw [decode_hwrite_word, exec_hwrite]
    exact ⟨_, okResponse, rfl, rfl, fun _ => rfl, by simp [Command.isLegal],
      fun _ => zeroDigest_isZero⟩
  · rw [decode_hsum_word, exec_hsum]
    exact ⟨_, _, rfl, rfl, fun _ => rfl, by simp [Command.isLegal], by simp [Command.isLegal]⟩
  · rw [decode_hash_word, exec_hash]
    exact ⟨_, _, rfl, rfl, fun _ => rfl, by simp [Command.isLegal], by simp [Command.isLegal]⟩
  · rw [exec_decode_of_not_isLegal hillegal]
    exact ⟨_, illegalResponse, rfl, rfl, by simp [hillegal], fun _ => rfl,
      fun _ => zeroDigest_isZero⟩

/-- Settles O1: R78's commands one by one. -/
theorem workedEncodingsDecode : Obligations.WorkedEncodingsDecode :=
  ⟨decode_hreset_word, rfl, decode_hwrite_word _, rfl, decode_hsum_word, decode_hash_word [], rfl,
    rfl, fun p => decode_of_not_isLegal (not_isLegal_of_toNat (by decide) p),
    fun p => decode_of_not_isLegal (not_isLegal_of_toNat (by decide) p)⟩

/-- Settles O6: too short and one command's bytes are the two cases, and they exclude each other. -/
theorem shortTransactionsAreRejected : Obligations.ShortTransactionsAreRejected := by
  intro bs
  rcases bytes_cases bs with ⟨hlen, hshort⟩ | ⟨c, rfl⟩
  · exact ⟨fun _ => hshort, fun hlong => absurd hlen (Nat.not_lt.mpr hlong)⟩
  · refine ⟨fun hlen => ?_, fun _ => ⟨decode c, decodeBytes_commandBytes c⟩⟩
    rw [length_commandBytes] at hlen
    omega

/-- Settles O8: the table word's transaction is the word alone, and `withCommand` places it as the
next command to run. -/
theorem fetchWordIsRunNext : Obligations.FetchWordIsRunNext := by
  intro s w
  constructor
  · rw [decodeTableWord, tableBytes_eq_commandBytes, decodeBytes_commandBytes]
    rfl
  · rw [State.withFetchWord, tableCommand_word, step_withCommand]

end Sys2Proof.Machine

/-!
PROOFS. The permutation's five steps, lane by lane (spec/40_permutation.md R86 to R95), and what an
operation on the lanes of one sponge state does (R85).
-/
namespace Sys2Proof.Machine

/-! ### An operation on the lanes of one sponge state -/

theorem changesOnly_setSponge (r : SReg) (s : State) (S : Sponge) :
    ChangesOnly r s (s.setSponge r S) := by
  cases r <;> rfl

theorem changesOnly_onLanes (r : SReg) (f : Lanes → Lanes) (s : State) :
    ChangesOnly r s (onLanes r f s) :=
  changesOnly_setSponge r s _

@[simp] theorem lanes_sponge_onLanes (r : SReg) (f : Lanes → Lanes) (s : State) :
    lanes ((onLanes r f s).sponge r) = f (lanes (s.sponge r)) := by
  rw [onLanes, sponge_setSponge, lanes_spongeOf]

theorem onLanes_eq_self {r : SReg} {f : Lanes → Lanes} {s : State}
    (h : f (lanes (s.sponge r)) = lanes (s.sponge r)) : onLanes r f s = s := by
  rw [onLanes, h, spongeOf_lanes, setSponge_sponge]

theorem onLanes_onLanes (r : SReg) (f g : Lanes → Lanes) (s : State) :
    onLanes r g (onLanes r f s) = onLanes r (g ∘ f) s := by
  rw [onLanes, lanes_sponge_onLanes, onLanes, setSponge_setSponge]
  rfl

@[simp] theorem exec_theta (r : SReg) (s : State) :
    exec (.theta r) s = .next (onLanes r thetaStep s) := rfl

@[simp] theorem exec_rho (r : SReg) (s : State) :
    exec (.rho r) s = .next (onLanes r rhoStep s) := rfl

@[simp] theorem exec_pi (r : SReg) (s : State) :
    exec (.pi r) s = .next (onLanes r piStep s) := rfl

@[simp] theorem exec_chi (r : SReg) (s : State) :
    exec (.chi r) s = .next (onLanes r chiStep s) := rfl

@[simp] theorem exec_iota (r : SReg) (i : Fin 24) (s : State) :
    exec (.iota r i) s = .next (onLanes r (iotaStep i) s) := rfl

@[simp] theorem exec_round (r : SReg) (i : Fin 24) (s : State) :
    exec (.round r i) s = .next (onLanes r (roundStep i) s) := rfl

@[simp] theorem exec_keccakF (r : SReg) (s : State) :
    exec (.keccakF r) s = .next (onLanes r allRounds s) := rfl

/-- The lane matrix of 25 zero lanes. -/
def zeroLanes : Lanes := lanesOf fun _ _ => 0

@[simp] theorem laneAt_zeroLanes (x y : Fin 5) : laneAt zeroLanes x y = 0#64 :=
  laneAt_lanesOf _ x y

theorem lanes_zeroSponge : lanes zeroSponge = zeroLanes := by
  apply lanes_ext
  intro x y
  rw [laneAt_zeroLanes, laneAt_lanes]
  simp only [zeroSponge_getElem]
  rfl

/-! ### Rotations of a lane -/

@[simp] theorem rotl64_zero_lane (n : Nat) : rotl64 0#64 n = 0#64 := by
  simp [rotl64]

/-- Rotation moves every bit of a lane, so a lane is known by the bits it is rotated to. -/
theorem rotl64_injective {n : Nat} (hn : n < 64) : Function.Injective fun v => rotl64 v n := by
  intro v w h
  apply BitVec.eq_of_getLsbD_eq
  intro i hi
  rw [← getLsbD_rotl64 v hn hi, ← getLsbD_rotl64 w hn hi]
  exact congrArg (fun u : Lane => u.getLsbD ((i + n) % 64)) h

/-- The bit rule of `getLsbD_rotl64` for a rotation by any number of places. -/
theorem getLsbD_rotateLeft_add_mod (v : Lane) (n : Nat) {i : Nat} (hi : i < 64) :
    (v.rotateLeft n).getLsbD ((i + n) % 64) = v.getLsbD i := by
  have hn : n % 64 < 64 := Nat.mod_lt n (by decide)
  rw [← BitVec.rotateLeft_mod_eq_rotateLeft, ← rotl64_eq_rotateLeft v hn, ← Nat.add_mod_mod,
    getLsbD_rotl64 v hn hi]

/-- Two lanes are equal when they agree on the bits `(i + n) mod 64`. -/
theorem lane_eq_of_shifted_bits {v w : Lane} (n : Nat)
    (h : ∀ i < 64, v.getLsbD ((i + n) % 64) = w.getLsbD ((i + n) % 64)) : v = w := by
  apply BitVec.eq_of_getLsbD_eq
  intro k hk
  have hback : ((k + 63 * n) % 64 + n) % 64 = k := by omega
  simpa only [hback] using h ((k + 63 * n) % 64) (Nat.mod_lt _ (by decide))

theorem rotateLeft_rotateLeft (v : Lane) (m n : Nat) :
    (v.rotateLeft m).rotateLeft n = v.rotateLeft (m + n) := by
  apply lane_eq_of_shifted_bits (m + n)
  intro i hi
  rw [getLsbD_rotateLeft_add_mod v (m + n) hi, ← Nat.add_assoc, ← Nat.mod_add_mod,
    getLsbD_rotateLeft_add_mod _ n (Nat.mod_lt _ (by decide)), getLsbD_rotateLeft_add_mod v m hi]

theorem rotateLeft_xor (v w : Lane) (n : Nat) :
    (v ^^^ w).rotateLeft n = v.rotateLeft n ^^^ w.rotateLeft n := by
  apply lane_eq_of_shifted_bits n
  intro i hi
  simp only [BitVec.getLsbD_xor, getLsbD_rotateLeft_add_mod _ n hi]

theorem rotl64_allOnes {n : Nat} (hn : n < 64) :
    rotl64 (BitVec.allOnes 64) n = BitVec.allOnes 64 := by
  rw [rotl64_eq_rotateLeft _ hn]
  apply lane_eq_of_shifted_bits n
  intro i hi
  rw [getLsbD_rotateLeft_add_mod _ n hi, BitVec.getLsbD_allOnes, BitVec.getLsbD_allOnes]
  simp [hi, Nat.mod_lt]

/-! ### The five steps, lane by lane -/

@[simp] theorem laneAt_thetaStep (A : Lanes) (x y : Fin 5) :
    laneAt (thetaStep A) x y =
      laneAt A x y ^^^ (columnParity A (x + 4) ^^^ rotl64 (columnParity A (x + 1)) 1) := by
  simp [thetaStep]

@[simp] theorem laneAt_rhoStep (A : Lanes) (x y : Fin 5) :
    laneAt (rhoStep A) x y = rotl64 (laneAt A x y) (rhoOffset x y) :=
  laneAt_lanesOf _ x y

@[simp] theorem laneAt_piStep (A : Lanes) (x y : Fin 5) :
    laneAt (piStep A) x y = laneAt A (x + 3 * y) x :=
  laneAt_lanesOf _ x y

@[simp] theorem laneAt_chiStep (A : Lanes) (x y : Fin 5) :
    laneAt (chiStep A) x y = laneAt A x y ^^^ (~~~(laneAt A (x + 1) y) &&& laneAt A (x + 2) y) :=
  laneAt_lanesOf _ x y

@[simp] theorem laneAt_iotaStep_zero (i : Fin 24) (A : Lanes) :
    laneAt (iotaStep i A) 0 0 = laneAt A 0 0 ^^^ roundConstants[i] := by
  rw [iotaStep, laneAt_lanesOf, if_pos ⟨rfl, rfl⟩]

theorem laneAt_iotaStep_of_ne (i : Fin 24) (A : Lanes) {x y : Fin 5} (h : ¬(x = 0 ∧ y = 0)) :
    laneAt (iotaStep i A) x y = laneAt A x y := by
  rw [iotaStep, laneAt_lanesOf, if_neg h]

/-- Theta changes nothing when all column parities are one lane that a rotation leaves alone: the
two neighbouring parities then cancel. -/
theorem thetaStep_eq_self {A : Lanes} {v : Lane} (hrot : rotl64 v 1 = v)
    (h : ∀ x, columnParity A x = v) : thetaStep A = A := by
  apply lanes_ext
  intro x y
  rw [laneAt_thetaStep, h, h, hrot, BitVec.xor_self]
  exact BitVec.xor_zero

theorem rhoOffset_le (x y : Fin 5) : rhoOffset x y ≤ 62 := by
  revert x y; decide

theorem rhoOffset_lt (x y : Fin 5) : rhoOffset x y < 64 :=
  (rhoOffset_le x y).trans_lt (by decide)

/-- R89 read from the old lane: the two index maps of Pi undo each other. -/
theorem laneAt_piStep_target (A : Lanes) (x y : Fin 5) :
    laneAt (piStep A) y (2 * x + 3 * y) = laneAt A x y := by
  have hx : y + 3 * (2 * x + 3 * y) = x := by revert x y; decide
  rw [laneAt_piStep, hx]

theorem roundConstant_ne_zero (i : Fin 24) : roundConstants[i] ≠ 0 := by
  revert i; decide

/-! ### The statements about the steps -/

/-- Settles O23: the formula lane by lane; all zeros and all ones are lanes a rotation leaves
alone. -/
theorem thetaMixesColumnParities : Obligations.ThetaMixesColumnParities := by
  intro r s
  refine ⟨onLanes r thetaStep s, exec_theta r s, changesOnly_onLanes r _ s, fun x y => ?_,
    fun h => ?_, fun h => ?_⟩
  · rw [lanes_sponge_onLanes]
    exact laneAt_thetaStep _ x y
  · exact onLanes_eq_self (thetaStep_eq_self (rotl64_zero_lane 1) h)
  · exact onLanes_eq_self (thetaStep_eq_self (rotl64_allOnes (by decide)) h)

/-- Settles O24: the 25 offsets, and the pairs of them, are finitely many. -/
theorem rhoOffsetTable : Obligations.RhoOffsetTable :=
  ⟨by decide, by decide, rhoOffset_le, by decide⟩

/-- Settles O25: the offset of lane (0,0) is 0, and lanes of zeros and of ones are the same after
every rotation. -/
theorem rhoRotatesEveryLane : Obligations.RhoRotatesEveryLane := by
  intro r s
  refine ⟨onLanes r rhoStep s, exec_rho r s, changesOnly_onLanes r _ s, ?_⟩
  simp only [lanes_sponge_onLanes, laneAt_rhoStep]
  refine ⟨fun _ _ => trivial, rotl64_zero _, rhoOffset_lt, fun x y h => ?_⟩
  rcases h with h | h
  · rw [h]
    exact rotl64_zero_lane _
  · rw [h, rotl64_allOnes (rhoOffset_lt x y)]

/-- Settles O26: R89 in both directions, and R90's table by R89 at each of its 25 places. -/
theorem piMovesEveryLane : Obligations.PiMovesEveryLane := by
  intro r s
  refine ⟨onLanes r piStep s, exec_pi r s, changesOnly_onLanes r _ s, ?_⟩
  simp only [lanes_sponge_onLanes]
  refine ⟨laneAt_piStep _, laneAt_piStep_target _, ?_⟩
  simp only [laneAt_piStep]
  rfl

/-- Settles O27: R91 lane by lane; in a row of zeros or of ones the `&` has an operand zero. -/
theorem chiMixesRowsFromInput : Obligations.ChiMixesRowsFromInput := by
  intro r s
  refine ⟨onLanes r chiStep s, exec_chi r s, changesOnly_onLanes r _ s, ?_⟩
  simp only [lanes_sponge_onLanes, laneAt_chiStep]
  refine ⟨fun _ _ => trivial, fun y h x => ?_, fun y h x => ?_⟩
  · simp [h]
  · simp [h]

/-- Settles O28: XOR with a constant other than zero changes lane (0,0). -/
theorem iotaChangesLaneZero : Obligations.IotaChangesLaneZero := by
  intro r i s
  refine ⟨onLanes r (iotaStep i) s, exec_iota r i s, changesOnly_onLanes r _ s, ?_⟩
  simp only [lanes_sponge_onLanes, laneAt_iotaStep_zero]
  refine ⟨trivial, fun h => ?_, fun x y h => laneAt_iotaStep_of_ne i _ h⟩
  exact roundConstant_ne_zero i ((BitVec.xor_right_inj _).mp (h.trans BitVec.xor_zero.symm))

/-- Settles O29: the LFSR's 24 constants and the table's bits are finite. -/
theorem roundConstantsFollowTheLfsr : Obligations.RoundConstantsFollowTheLfsr :=
  ⟨by decide +kernel, by decide +kernel, roundConstant_ne_zero⟩

end Sys2Proof.Machine

/-!
PROOFS. The round and the 24 rounds (spec/40_permutation.md R96 to R99).
-/
namespace Sys2Proof.Machine

theorem roundStep_eq_comp (i : Fin 24) :
    roundStep i = iotaStep i ∘ chiStep ∘ piStep ∘ rhoStep ∘ thetaStep := by
  funext A
  simp only [roundStep, Function.comp_apply]

/-- Theta, Rho, Pi and Chi leave the zero matrix as it is, so a round of it is Iota alone. -/
theorem roundStep_zeroLanes (i : Fin 24) : roundStep i zeroLanes = iotaStep i zeroLanes := by
  have htheta : thetaStep zeroLanes = zeroLanes :=
    thetaStep_eq_self (rotl64_zero_lane 1) fun x => by simp [columnParity]
  have hrest : chiStep (piStep (rhoStep zeroLanes)) = zeroLanes :=
    lanes_ext fun x y => by simp
  rw [roundStep, htheta, hrest]

/-- The rounds of these indices, one after the other, on a lane matrix. -/
def runRounds (is : List (Fin 24)) (A : Lanes) : Lanes := is.foldl (fun A i => roundStep i A) A

theorem runRounds_cons (i : Fin 24) (is : List (Fin 24)) :
    runRounds (i :: is) = runRounds is ∘ roundStep i := rfl

theorem allRounds_eq_runRounds : allRounds = runRounds (List.finRange 24) := rfl

theorem execAll_rounds (r : SReg) (is : List (Fin 24)) (s : State) :
    execAll (is.map (Instr.round r)) s = .next (onLanes r (runRounds is) s) := by
  induction is generalizing s with
  | nil => exact congrArg _ (onLanes_eq_self rfl).symm
  | cons i is ih =>
    rw [List.map_cons, execAll_cons (exec_round r i s), ih, onLanes_onLanes, runRounds_cons]

/-- One operation at a time, so that the checker never has to compare the lanes themselves. -/
theorem execAll_fiveSteps (r : SReg) (i : Fin 24) (s : State) :
    execAll [.theta r, .rho r, .pi r, .chi r, .iota r i] s =
      .next (onLanes r (roundStep i) s) := by
  rw [execAll_cons (exec_theta r s), execAll_cons (exec_rho r _), execAll_cons (exec_pi r _),
    execAll_cons (exec_chi r _), execAll_cons (exec_iota r i _), execAll_nil]
  simp only [onLanes_onLanes, roundStep_eq_comp]

/-- Settles O30: the five steps on one sponge state are their composition, which is the round; and
Iota of round 0 on the zero matrix. -/
theorem roundIsTheFiveStepsInOrder : Obligations.RoundIsTheFiveStepsInOrder := by
  intro r i s
  refine ⟨onLanes r (roundStep i) s, exec_round r i s, changesOnly_onLanes r _ s,
    execAll_fiveSteps r i s, fun hi hzero => ?_⟩
  have hlanes : lanes (s.sponge r) = zeroLanes :=
    (congrArg lanes hzero).trans lanes_zeroSponge
  rw [lanes_sponge_onLanes, hlanes, roundStep_zeroLanes, hi]
  refine ⟨?_, fun x y hxy => ?_⟩
  · rw [laneAt_iotaStep_zero, laneAt_zeroLanes]
    decide
  · exact (laneAt_iotaStep_of_ne 0 _ hxy).trans (laneAt_zeroLanes x y)

/-- Settles O31: by induction on the list of rounds, running it is one operation on the lanes. -/
theorem keccakFIsTwentyFourRounds : Obligations.KeccakFIsTwentyFourRounds := fun r s =>
  ⟨onLanes r allRounds s, exec_keccakF r s, changesOnly_onLanes r _ s,
    allRounds_eq_runRounds ▸ execAll_rounds r (List.finRange 24) s⟩

theorem laneAt_keccakF_zero :
    laneAt (lanes (keccakF zeroSponge)) 0 0 = 0xF1258F7940E1DDE7 := by
  decide +kernel

/-- Settles O32: lane (0,0) by evaluation, and the zero state has zero there. -/
theorem keccakFOfTheZeroState : Obligations.KeccakFOfTheZeroState := by
  refine ⟨laneAt_keccakF_zero, fun h => ?_⟩
  have hlane := laneAt_keccakF_zero
  rw [show keccakF zeroSponge = zeroSponge from h, lanes_zeroSponge, laneAt_zeroLanes] at hlane
  exact absurd hlane (by decide)

end Sys2Proof.Machine

/-!
PROOFS. KeccakF is a bijection (spec/40_permutation.md R102): each of the five steps is injective,
and a 200-byte state has finitely many values.
-/
namespace Sys2Proof.Machine

/-! ### Theta

Theta acts on the five column parities by `parityMix 1 1`. Mixing twice is mixing with both
distances doubled (`parityMix_parityMix`), so after six doublings the rotation is one by 64 places,
which is none, and what is left has an inverse that can be written down. -/

theorem lane_xor_left_comm (u v w : Lane) : u ^^^ (v ^^^ w) = v ^^^ (u ^^^ w) := by
  ac_rfl

/-- Each lane with the lane `a` places before it and, rotated by `n`, the lane `a` places after. -/
def parityMix (a : Fin 5) (n : Nat) (C : Fin 5 → Lane) (x : Fin 5) : Lane :=
  C x ^^^ C (x - a) ^^^ (C (x + a)).rotateLeft n

/-- A lane XORed into five lanes, an odd number, is XORed into their parity once. -/
theorem xor_five_lanes (a b c d e v : Lane) :
    a ^^^ v ^^^ (b ^^^ v) ^^^ (c ^^^ v) ^^^ (d ^^^ v) ^^^ (e ^^^ v) =
      a ^^^ b ^^^ c ^^^ d ^^^ e ^^^ v := by
  simp [BitVec.xor_assoc, BitVec.xor_comm, lane_xor_left_comm]

theorem columnParity_thetaStep (A : Lanes) :
    columnParity (thetaStep A) = parityMix 1 1 (columnParity A) := by
  funext x
  have hback : x + 4 = x - 1 := by revert x; decide
  rw [parityMix, ← rotl64_eq_rotateLeft _ (by decide), BitVec.xor_assoc, ← hback, columnParity]
  simp only [laneAt_thetaStep, xor_five_lanes]
  rfl

theorem parityMix_parityMix (a : Fin 5) (n : Nat) (C : Fin 5 → Lane) :
    parityMix a n (parityMix a n C) = parityMix (a + a) (n + n) C := by
  funext x
  simp only [parityMix, rotateLeft_xor, rotateLeft_rotateLeft, sub_add_cancel, add_sub_cancel_right,
    ← add_assoc, ← sub_sub]
  simp [BitVec.xor_assoc, BitVec.xor_comm, lane_xor_left_comm]

theorem parityMix_injective_of_double {a : Fin 5} {n : Nat}
    (h : Function.Injective (parityMix (a + a) (n + n))) : Function.Injective (parityMix a n) := by
  have hdouble : parityMix (a + a) (n + n) = parityMix a n ∘ parityMix a n :=
    funext fun C => (parityMix_parityMix a n C).symm
  exact (hdouble ▸ h).of_comp

theorem rotateLeft_64 (v : Lane) : v.rotateLeft 64 = v := by
  rw [← BitVec.rotateLeft_mod_eq_rotateLeft, Nat.mod_self, ← rotl64_eq_rotateLeft v (by decide),
    rotl64_zero]

/-- Where the doublings end: without a rotation, mixing at distance 4 is undone by mixing at
distance 3, the next double mod 5. -/
theorem parityMix_three_four (C : Fin 5 → Lane) : parityMix 3 64 (parityMix 4 64 C) = C := by
  funext x
  have neg_three : (-3 : Fin 5) = 2 := rfl
  have neg_four : (-4 : Fin 5) = 1 := rfl
  simp only [parityMix, rotateLeft_64, sub_eq_add_neg, add_assoc, neg_three, neg_four,
    Fin.reduceAdd]
  simp [BitVec.xor_assoc, BitVec.xor_comm, lane_xor_left_comm]

theorem parityMix_injective : Function.Injective (parityMix 1 1) := by
  have hend : Function.Injective (parityMix 4 64) :=
    Function.LeftInverse.injective parityMix_three_four
  iterate 6 apply parityMix_injective_of_double
  exact hend

theorem thetaStep_injective : Function.Injective thetaStep := by
  intro A B h
  have hparity : columnParity A = columnParity B := by
    apply parityMix_injective
    rw [← columnParity_thetaStep, ← columnParity_thetaStep, h]
  apply lanes_ext
  intro x y
  have hlane := congrArg (fun A => laneAt A x y) h
  simp only [laneAt_thetaStep, hparity] at hlane
  exact (BitVec.xor_left_inj _).mp hlane

/-! ### Rho, Pi and Iota -/

theorem rhoStep_injective : Function.Injective rhoStep := by
  intro A B h
  apply lanes_ext
  intro x y
  apply rotl64_injective (rhoOffset_lt x y)
  simp only [← laneAt_rhoStep, h]

theorem piStep_injective : Function.Injective piStep := by
  intro A B h
  apply lanes_ext
  intro x y
  rw [← laneAt_piStep_target A, ← laneAt_piStep_target B, h]

theorem iotaStep_injective (i : Fin 24) : Function.Injective (iotaStep i) := by
  intro A B h
  apply lanes_ext
  intro x y
  have hlane := congrArg (fun A => laneAt A x y) h
  by_cases hzero : x = 0 ∧ y = 0
  · obtain ⟨rfl, rfl⟩ := hzero
    simp only [laneAt_iotaStep_zero] at hlane
    exact (BitVec.xor_left_inj _).mp hlane
  · simpa only [laneAt_iotaStep_of_ne i _ hzero] using hlane

/-! ### Chi -/

/-- The inverse of Chi, lane by lane: a lane of a row from the five lanes that Chi made of it. -/
def chiInverse (B : Lanes) : Lanes :=
  lanesOf fun x y => laneAt B x y ^^^ (~~~(laneAt B (x + 1) y) &&&
    (laneAt B (x + 2) y ^^^ (~~~(laneAt B (x + 3) y) &&& laneAt B (x + 4) y)))

/-- Chi and its inverse on one row: every bit depends on five bits only, which are 32 cases. -/
theorem chi_row_inverse (a b c d e : Lane) :
    a ^^^ (~~~b &&& c) ^^^ (~~~(b ^^^ (~~~c &&& d)) &&&
      (c ^^^ (~~~d &&& e) ^^^ (~~~(d ^^^ (~~~e &&& a)) &&& (e ^^^ (~~~a &&& b))))) = a := by
  apply BitVec.eq_of_getLsbD_eq
  intro k hk
  simp only [BitVec.getLsbD_xor, BitVec.getLsbD_and, BitVec.getLsbD_not, hk, decide_true,
    Bool.true_and]
  generalize a.getLsbD k = a, b.getLsbD k = b, c.getLsbD k = c, d.getLsbD k = d,
    e.getLsbD k = e
  revert a b c d e
  decide

theorem chiInverse_chiStep : Function.LeftInverse chiInverse chiStep := by
  intro A
  apply lanes_ext
  intro x y
  simp only [chiInverse, laneAt_lanesOf, laneAt_chiStep, add_assoc, Fin.reduceAdd, add_zero]
  exact chi_row_inverse _ _ _ _ _

/-! ### The rounds -/

theorem roundStep_injective (i : Fin 24) : Function.Injective (roundStep i) :=
  (iotaStep_injective i).comp <| chiInverse_chiStep.injective.comp <| piStep_injective.comp <|
    rhoStep_injective.comp thetaStep_injective

theorem runRounds_injective (is : List (Fin 24)) : Function.Injective (runRounds is) := by
  induction is with
  | nil => exact Function.injective_id
  | cons i is ih => exact runRounds_cons i is ▸ ih.comp (roundStep_injective i)

theorem keccakF_injective : Function.Injective keccakF := by
  have hlanes : Function.Injective lanes := Function.LeftInverse.injective spongeOf_lanes
  have hbytes : Function.Injective spongeOf := Function.LeftInverse.injective lanes_spongeOf
  exact fun S T h => hlanes (runRounds_injective _ (hbytes h))

theorem finite_sponge : Finite Sponge :=
  Finite.of_injective (fun (S : Sponge) (i : Fin 200) => S[i]) fun _ _ h =>
    sponge_ext (congrFun h)

/-- Settles O33: an injective function on a finite set is a bijection. -/
theorem keccakFIsInvertible : Obligations.KeccakFIsInvertible :=
  have := finite_sponge
  Finite.injective_iff_bijective.mp keccakF_injective

end Sys2Proof.Machine

/-!
PROOFS. The sponge engine's operations (spec/41_sponge.md R110 to R121): what each does inside the
domain of its rule and where it stops, absorption and the pad byte by byte, and the one-shot digest
as a run of them.
-/
namespace Sys2Proof.Machine

/-! ### Inside and outside the domain of each rule -/

@[simp] theorem exec_absorbBlock (r : SReg) {b : List Byte} (hb : b.length = 136) (s : State) :
    exec (.absorbBlock r b) s = .next (s.setSponge r (absorbBlockInto (s.sponge r) b)) :=
  if_pos hb

@[simp] theorem exec_absorbBlocks (r : SReg) {m : List Byte} (hm : m.length % 136 = 0) (s : State) :
    exec (.absorbBlocks r m) s = .next (s.setSponge r (absorbBlocksInto (s.sponge r) m)) :=
  if_pos hm

@[simp] theorem exec_padFinal (r : SReg) {t : List Byte} (ht : t.length ≤ 135) (s : State) :
    exec (.padFinal r t) s = .next (s.setSponge r (padFinalInto (s.sponge r) t)) :=
  if_pos ht

@[simp] theorem exec_squeeze (r : SReg) (s : State) :
    exec (.squeeze r) s = .next (returnValue (.digest (squeezeFrom (s.sponge r))) s) := rfl

@[simp] theorem exec_keccak256 (m : List Byte) (s : State) :
    exec (.keccak256 m) s = .next (returnValue (.digest (keccak256Of m)) s) := rfl

/-- Settles O41: each operation checks the length of its operand before anything else. -/
theorem spongeOperandsOutOfDomainStop : Obligations.SpongeOperandsOutOfDomainStop := fun _ _ _ =>
  ⟨fun hb => if_neg hb, fun hm => if_neg hm, fun ht => if_neg (by omega)⟩

/-! ### One block -/

theorem xorBytes_getElem_of_lt (S : Sponge) {b : List Byte} {i : Nat} (h : i < 200)
    (hi : i < b.length) : (xorBytes S b)[i] = S[i] ^^^ b[i] := by
  rw [xorBytes_getElem, List.getD_eq_getElem]

/-- A block of zero bytes changes nothing, so absorbing it is KeccakF alone. -/
theorem xorBytes_replicate_zero (S : Sponge) (n : Nat) :
    xorBytes S (List.replicate n 0x00) = S := by
  apply sponge_ext
  intro i
  simp

/-- Settles O34: the state before KeccakF is `xorBytes`, which reads the block up to its end. -/
theorem absorbBlockXorsThenPermutes : Obligations.AbsorbBlockXorsThenPermutes := by
  intro r b s hb
  refine ⟨_, xorBytes (s.sponge r) b, exec_absorbBlock r hb s, changesOnly_setSponge r s _,
    fun i => ?_, sponge_setSponge s r _, fun hzero => ?_⟩
  · split
    next hi => exact xorBytes_getElem_of_lt _ i.isLt (by omega)
    next hi => exact xorBytes_getElem_of_le _ i.isLt (by omega)
  · rw [sponge_setSponge, absorbBlockInto, hzero, xorBytes_replicate_zero]

/-! ### The pad -/

/-- R113 byte by byte: a byte of the tail, and the two bytes of the pad at their places. -/
theorem padTail_getElem_eq_xor (S : Sponge) (T : List Byte) (i : Nat) (h : i < 200) :
    (padTail S T)[i] = S[i] ^^^ (if h : i < T.length then T[i] else 0x00) ^^^
      (if i = T.length then 0x01 else 0x00) ^^^ (if i = 135 then 0x80 else 0x00) := by
  have htail : T.getD i 0 = if h : i < T.length then T[i] else 0x00 := by
    split
    next hi => exact List.getD_eq_getElem T 0 hi
    next hi => exact List.getD_eq_default T 0 (by omega)
  have hxor (p : Prop) [Decidable p] (u v : Byte) :
      (if p then u ^^^ v else u) = u ^^^ if p then v else 0x00 := by
    split
    · rfl
    · exact BitVec.xor_zero.symm
  rw [padTail, xorByteAt_getElem, xorByteAt_getElem, xorBytes_getElem, htail, hxor, hxor]

/-- Settles O37: the state before KeccakF is `padTail`; past a tail of 135 bytes both bytes of the
pad fall on byte 135. -/
theorem padFinalPadsThenPermutes : Obligations.PadFinalPadsThenPermutes := by
  intro r T s hT
  refine ⟨_, padTail (s.sponge r) T, exec_padFinal r hT s, changesOnly_setSponge r s _,
    fun i => padTail_getElem_eq_xor _ T i i.isLt, fun hlen => ?_, sponge_setSponge s r _⟩
  rw [padTail_getElem_eq_xor, dif_neg (by omega), if_pos hlen.symm, if_pos rfl,
    BitVec.xor_assoc, BitVec.xor_assoc]
  rfl

/-! ### The blocks in order -/

/-- The blocks that AbsorbBlocks of M absorbs, first to last. -/
def blocksOf (M : List Byte) : List (List Byte) :=
  (List.range (M.length / 136)).map fun j => slice M (136 * j) (136 * j + 136)

theorem absorbBlocksInto_eq_foldl (S : Sponge) (M : List Byte) :
    absorbBlocksInto S M = (blocksOf M).foldl absorbBlockInto S := by
  rw [absorbBlocksInto, blocksOf, List.foldl_map]

theorem length_blocksOf (M : List Byte) : (blocksOf M).length = M.length / 136 := by
  simp [blocksOf]

theorem length_of_mem_blocksOf {M B : List Byte} (h : B ∈ blocksOf M) : B.length = 136 := by
  obtain ⟨j, hj, rfl⟩ := List.mem_map.mp h
  have := List.mem_range.mp hj
  rw [slice_length M _ _ (by omega)]
  omega

/-- Running AbsorbBlock over whole blocks absorbs them in the order of the list. -/
theorem execAll_absorbBlock (r : SReg) (Bs : List (List Byte)) (hBs : ∀ B ∈ Bs, B.length = 136)
    (s : State) :
    execAll (Bs.map (Instr.absorbBlock r)) s =
      .next (s.setSponge r (Bs.foldl absorbBlockInto (s.sponge r))) := by
  induction Bs generalizing s with
  | nil => exact congrArg _ (setSponge_sponge s r).symm
  | cons B Bs ih =>
    obtain ⟨hB, hBs⟩ := List.forall_mem_cons.mp hBs
    rw [List.map_cons, execAll_cons (exec_absorbBlock r hB s), ih hBs, sponge_setSponge,
      setSponge_setSponge, List.foldl_cons]

/-- Settles O38: the run over the blocks and the one operation are the same fold. -/
theorem absorbBlocksInOrder : Obligations.AbsorbBlocksInOrder := by
  refine ⟨fun r M s hM => ⟨_, exec_absorbBlocks r hM s, changesOnly_setSponge r s _, ?_, ?_⟩,
    fun S M N hM _ => absorbBlocksInto_append S hM N⟩
  · have hrun := execAll_absorbBlock r (blocksOf M) (fun _ => length_of_mem_blocksOf) s
    rw [← absorbBlocksInto_eq_foldl, blocksOf, List.map_map] at hrun
    exact hrun
  · rintro rfl
    rw [absorbBlocksInto_nil, setSponge_sponge]

/-! ### The digest -/

/-- Settles O39: byte j of lane (x,0) is state byte 8x + j, by the byte view of a lane (R21). -/
theorem squeezeReadsThirtyTwoBytes : Obligations.SqueezeReadsThirtyTwoBytes := by
  intro r s
  refine ⟨squeezeFrom (s.sponge r), exec_squeeze r s,
    fun j => squeezeFrom_getElem _ j.val j.isLt, fun x j => ?_⟩
  obtain ⟨hbyte, -, -, -⟩ := laneAndByteViewsAgree
  rw [squeezeFrom_getElem, hbyte]
  rfl

theorem keccak256Of_eq (M : List Byte) :
    keccak256Of M =
      squeezeFrom (padFinalInto (absorbBlocksInto zeroSponge (fullBlocks M)) (tailOf M)) := by
  rw [keccak256Of, slice_zero, slice_to_end, fullBlocks, tailOf]

/-- Settles O40: the three operations in a row, each inside its domain, on a scratch state of zero
bytes. -/
theorem keccak256IsAbsorbPadSqueeze : Obligations.Keccak256IsAbsorbPadSqueeze := by
  intro M s
  refine ⟨keccak256Of M, exec_keccak256 M s, length_tailOf M, _,
    (execAll_cons (exec_absorbBlocks .scr (length_fullBlocks_mod M) _)).trans <|
      (execAll_cons (exec_padFinal .scr (length_tailOf_le M) _)).trans <|
        execAll_cons (exec_squeeze .scr _), ?_⟩
  rw [returnValue, sponge_setSponge, sponge_setSponge, keccak256Of_eq]
  rfl

end Sys2Proof.Machine

/-!
PROOFS. The count of KeccakF calls (spec/70_reset_and_hazards.md R209): the counted rules give the
results of the rules themselves, and one call accounts for every 136 bytes that leave a buffer.
-/
namespace Sys2Proof.Machine

theorem countedAbsorbBlock_eq (X : Counted) (B : List Byte) :
    countedAbsorbBlock X B = (absorbBlockInto X.1 B, X.2 + 1) := rfl

theorem countedPadFinal_eq (X : Counted) (T : List Byte) :
    countedPadFinal X T = (padFinalInto X.1 T, X.2 + 1) := rfl

theorem foldl_countedAbsorbBlock (X : Counted) (Bs : List (List Byte)) :
    Bs.foldl countedAbsorbBlock X = (Bs.foldl absorbBlockInto X.1, X.2 + Bs.length) := by
  induction Bs generalizing X with
  | nil => rfl
  | cons B Bs ih =>
    rw [List.foldl_cons, ih, countedAbsorbBlock_eq, List.foldl_cons, List.length_cons,
      Nat.add_assoc, Nat.add_comm 1]

theorem countedAbsorbBlocks_eq (X : Counted) (M : List Byte) :
    countedAbsorbBlocks X M = (absorbBlocksInto X.1 M, X.2 + M.length / 136) := by
  have hfold : countedAbsorbBlocks X M = (blocksOf M).foldl countedAbsorbBlock X := by
    rw [countedAbsorbBlocks, blocksOf, List.foldl_map]
  rw [hfold, foldl_countedAbsorbBlock, absorbBlocksInto_eq_foldl, length_blocksOf]

/-- Step (a): what was buffered or written and is neither kept nor passed on went into a call. -/
theorem countedTopUp_eq (X : Counted) (buf p : List Byte) :
    ∃ n, countedTopUp X buf p = (((topUp X.1 buf p).1, X.2 + n), (topUp X.1 buf p).2) ∧
      136 * n + (topUp X.1 buf p).2.1.length + (topUp X.1 buf p).2.2.length =
        buf.length + p.length := by
  rw [countedTopUp, topUp]
  generalize htake : min (136 - buf.length) p.length = k
  have hfull : (buf ++ slice p 0 k).length = buf.length + k := by
    rw [List.length_append, slice_length p 0 k (by omega), Nat.sub_zero]
  have hrest : (p.drop k).length = p.length - k := List.length_drop
  by_cases hpos : buf.length > 0
  · simp only [if_pos hpos]
    split
    next => exact ⟨1, rfl, by simp only [List.length_nil]; omega⟩
    next => exact ⟨0, rfl, by dsimp only; omega⟩
  · simp only [if_neg hpos]
    exact ⟨0, rfl, by simp⟩

/-- Step (b): each pass is one call and takes 136 bytes of the payload. -/
theorem countedAbsorbWhole_eq (k : Nat) (X : Counted) (p : List Byte) :
    ∃ n, countedAbsorbWhole k X p =
        (((absorbWhole k X.1 p).1, X.2 + n), (absorbWhole k X.1 p).2) ∧
      136 * n + (absorbWhole k X.1 p).2.length = p.length := by
  induction k generalizing X p with
  | zero => exact ⟨0, rfl, by simp [absorbWhole]⟩
  | succ k ih =>
    rw [countedAbsorbWhole, absorbWhole]
    split
    next hfull =>
      obtain ⟨n, hrun, hbytes⟩ := ih (countedAbsorbBlock X (slice p 0 136)) (p.drop 136)
      rw [countedAbsorbBlock_eq] at hrun hbytes
      refine ⟨n + 1, ?_, ?_⟩
      · rw [countedAbsorbBlock_eq, hrun, Nat.add_assoc, Nat.add_comm 1]
      · rw [List.length_drop] at hbytes
        dsimp only at hbytes ⊢
        omega
    next => exact ⟨0, rfl, by simp⟩

/-- HWRITE: every 136 bytes of BUF and the payload that do not stay in BUF went into one call. -/
theorem countedWrite_eq (X : Counted) (buf p : List Byte) :
    ∃ n, countedWrite X buf p = (((writeInto X.1 buf p).1, X.2 + n), (writeInto X.1 buf p).2) ∧
      136 * n + (writeInto X.1 buf p).2.length = buf.length + p.length := by
  obtain ⟨a, htop, htopBytes⟩ := countedTopUp_eq X buf p
  rw [countedWrite, writeInto, htop]
  generalize topUp X.1 buf p = t at htopBytes ⊢
  obtain ⟨S1, buf1, p1⟩ := t
  obtain ⟨b, hwhole, hwholeBytes⟩ := countedAbsorbWhole_eq p1.length (S1, X.2 + a) p1
  dsimp only at htopBytes hwhole hwholeBytes ⊢
  rw [hwhole, List.length_append]
  exact ⟨a + b, by rw [Nat.add_assoc], by omega⟩

/-- Settles O59: HWRITE keeps at most 135 bytes, which fixes its number of calls; HSUM is one
PadFinal, and HASH is AbsorbBlocks of its full blocks and one PadFinal. -/
theorem keccakFCallsPerCommand : Obligations.KeccakFCallsPerCommand := by
  refine ⟨fun s p hbuf => ?_, fun s => countedPadFinal_eq (s.ctxS, 0) s.buf, fun p => ?_⟩
  · obtain ⟨n, hwrite, hbytes⟩ := countedWrite_eq (s.ctxS, 0) s.buf p
    have hleft := length_writeInto_snd_le s.ctxS hbuf p
    have hcalls : (s.buf.length + p.length) / 136 = n := by
      dsimp only at hbytes
      omega
    rw [hwrite, hcalls, Nat.zero_add]
  · have hblocks : (slice p 0 (136 * (p.length / 136))).length / 136 = p.length / 136 := by
      rw [slice_length p _ _ (by omega)]
      omega
    rw [countedKeccak256, countedPadFinal_eq, countedAbsorbBlocks_eq, hblocks, Nat.zero_add,
      hashScratch]

end Sys2Proof.Machine

/-!
PROOFS. The streaming hasher (spec/42_hasher.md R128 to R152): each command from any state, and the
digests that sequences of commands answer.
-/
namespace Sys2Proof.Machine

/-! ### Completion -/

theorem exec_decode_completes (c : Command) (s : State) : ∃ t, exec (decode c) s = .next t := by
  rcases decode_cases c with hc | hc | hc | hc | hc <;> rw [hc] <;> exact ⟨_, rfl⟩

theorem blockTurn_completes (s : State) : ∃ t, blockTurn s = .next t := by
  rcases hnext : nextCommand s with _ | ⟨c, s1⟩
  · exact ⟨_, blockTurn_of_none hnext⟩
  · rw [blockTurn_of_some hnext]
    exact exec_decode_completes c s1

/-- Settles O9: a block's turn runs a command, which completes, or waits; any other move is the
outside world's. -/
theorem everyStepCompletes : Obligations.EveryStepCompletes := by
  intro s
  by_cases hturn : (nextTurn s).1 = .block
  · rw [step_of_block hturn]
    exact blockTurn_completes _
  · exact ⟨_, step_of_outside hturn⟩

/-! ### HRESET and HWRITE -/

/-- `Latched` is the latch, read as a relation. -/
theorem latched_latchSel (s : State) : Latched s (latchSel s) := latchSel_cases s

/-- Settles O42: the latch is idle the second time, and the other two updates write constants. -/
theorem hresetRestartsTheContext : Obligations.HresetRestartsTheContext := by
  refine fun s => ⟨_, _, latched_latchSel s, exec_hreset s, rfl, rfl, ?_⟩
  rw [exec_hreset, latchSel_of_valid (by simp)]
  rfl

/-- R138: HWRITE on the context in closed form. -/
theorem writeContext_eq {s : State} (hbuf : s.buf.length ≤ 135) (p : List Byte) :
    writeContext p s = { s with
      ctxS := absorbBlocksInto s.ctxS (fullBlocks (s.buf ++ p)), buf := tailOf (s.buf ++ p) } := by
  rw [writeContext, writeInto_eq _ hbuf]

/-- R140: an empty payload leaves the context. -/
theorem writeContext_nil {s : State} (hbuf : s.buf.length ≤ 135) : writeContext [] s = s := by
  rw [writeContext, writeInto_nil _ _ hbuf]

/-- Settles O43: HWRITE absorbs the full blocks of BUF ++ P and keeps their tail. -/
theorem hwriteHasItsClosedForm : Obligations.HwriteHasItsClosedForm := by
  intro s p hbuf
  have hlatch : (latchSel s).buf.length ≤ 135 := by simpa using hbuf
  refine ⟨_, _, latched_latchSel s, exec_hwrite p s, ?_, ?_, ?_⟩
  · rw [writeContext_eq hlatch, latchSel_ctxS, latchSel_buf]
    rfl
  · simpa using length_writeInto_snd_le s.ctxS hbuf p
  · rintro rfl
    rw [writeContext_nil hlatch]
    rfl

/-! ### The phase -/

theorem phase_eq_of_buf_eq {s t : State} (h : t.buf = s.buf) : t.phase = s.phase := by
  rw [State.phase, State.phase, h]

/-- Settles O44: HWRITE keeps a tail of (BUF_CNT + |P|) mod 136 bytes; HSUM, HASH and ILLEGAL keep
BUF. -/
theorem phaseTransitions : Obligations.PhaseTransitions := by
  intro s hbuf
  refine ⟨⟨_, exec_hreset s, rfl⟩, fun p => ⟨_, exec_hwrite p s, ?_⟩,
    ⟨_, exec_hsum s, phase_eq_of_buf_eq (by simp)⟩,
    fun p => ⟨_, exec_hash p s, phase_eq_of_buf_eq (by simp)⟩,
    fun c => ⟨_, exec_illegal c s, phase_eq_of_buf_eq (by simp)⟩⟩
  rw [State.phase, respond_buf, writeContext_buf, latchSel_ctxS, latchSel_buf, writeInto_eq _ hbuf,
    length_tailOf, List.length_append]

/-! ### HSUM and HASH -/

/-- Settles O45: PadFinal and Squeeze on a scratch copy of CTX_S are what HSUM computes. -/
theorem hsumDigestsACopy : Obligations.HsumDigestsACopy := by
  refine fun s hbuf => ⟨_, _, _, _, latched_latchSel s, exec_hsum s,
    (execAll_cons (exec_padFinal .scr hbuf _)).trans (execAll_cons (exec_squeeze .scr _)), ?_⟩
  rw [sponge_setSponge]
  rfl

/-- Before the squeeze, HASH has computed what Keccak256 computes (R148). -/
theorem squeezeFrom_hashScratch (p : List Byte) : squeezeFrom (hashScratch p) = keccak256Of p := rfl

/-- Settles O48: HASH squeezes the state that Keccak256 of the payload squeezes. -/
theorem hashIsKeccak256OfThePayload : Obligations.HashIsKeccak256OfThePayload := fun s p =>
  ⟨_, _, _, _, latched_latchSel s, exec_hash p s, exec_keccak256 p s,
    by rw [squeezeFrom_hashScratch]; rfl⟩

/-! ### The context as all that a command's response depends on -/

/-- The same streaming context: CTX_S and BUF. -/
def SameContext (s u : State) : Prop := s.ctxS = u.ctxS ∧ s.buf = u.buf

theorem SameContext.hsumScratch_eq {s u : State} (h : SameContext s u) :
    hsumScratch s = hsumScratch u := by
  obtain ⟨hctx, hbuf⟩ := h
  rw [hsumScratch, hsumScratch, hctx, hbuf]

/-- From the same context a command gives the same response and leaves the same context. -/
theorem exec_decode_sameContext {s u : State} (h : SameContext s u) (c : Command) :
    ∃ t v, exec (decode c) s = .next t ∧ exec (decode c) u = .next v ∧
      t.respPort = v.respPort ∧ SameContext t v := by
  obtain ⟨hctx, hbuf⟩ := id h
  rcases decode_cases c with hc | hc | hc | hc | hc <;> rw [hc]
  · exact ⟨_, _, exec_hreset s, exec_hreset u, rfl, rfl, rfl⟩
  · exact ⟨_, _, exec_hwrite _ s, exec_hwrite _ u, rfl, by simp [hctx, hbuf], by simp [hctx, hbuf]⟩
  · exact ⟨_, _, exec_hsum s, exec_hsum u, by simp [h.hsumScratch_eq],
      by simpa using hctx, by simpa using hbuf⟩
  · exact ⟨_, _, exec_hash _ s, exec_hash _ u, rfl, by simpa using hctx, by simpa using hbuf⟩
  · exact ⟨_, _, exec_illegal c s, exec_illegal c u, rfl, hctx, hbuf⟩

theorem responses_cons {c : Command} {s t : State} (h : exec (decode c) s = .next t)
    (W : List Command) : responses (c :: W) s = t.respPort :: responses W t := by
  rw [responses, h]

theorem responses_eq_of_sameContext {s u : State} (h : SameContext s u) (W : List Command) :
    responses W s = responses W u := by
  induction W generalizing s u with
  | nil => rfl
  | cons c W ih =>
    obtain ⟨t, v, hs, hu, hresp, htv⟩ := exec_decode_sameContext h c
    rw [responses_cons hs, responses_cons hu, hresp, ih htv]

/-- Settles O54: HRESET leaves the context of a power-on reset. -/
theorem hresetForgetsEarlierWrites : Obligations.HresetForgetsEarlierWrites := by
  intro s W
  have hreset : SameContext (respond okResponse (resetContext (latchSel s))) State.reset :=
    ⟨rfl, rfl⟩
  exact ⟨_, exec_hreset s, responses_eq_of_sameContext hreset W⟩

/-! ### Commands that keep the context -/

/-- The commands that may stand between two HSUMs of one message (R145). -/
def KeepsContext (c : Command) : Prop :=
  decode c = .hsum ∨ (∃ p, decode c = .hash p) ∨ decode c = .illegal c

theorem exec_of_keepsContext {c : Command} (hc : KeepsContext c) (s : State) :
    ∃ t, exec (decode c) s = .next t ∧ SameContext t s := by
  rcases hc with hc | ⟨p, hc⟩ | hc <;> rw [hc]
  · exact ⟨_, exec_hsum s, by simp [SameContext]⟩
  · exact ⟨_, exec_hash p s, by simp [SameContext]⟩
  · exact ⟨_, exec_illegal c s, by simp [SameContext]⟩

theorem execAll_of_keepsContext {W : List Command} (hW : ∀ c ∈ W, KeepsContext c) (s : State) :
    ∃ t, execAll (W.map decode) s = .next t ∧ SameContext t s := by
  induction W generalizing s with
  | nil => exact ⟨s, rfl, rfl, rfl⟩
  | cons c W ih =>
    obtain ⟨hc, hW⟩ := List.forall_mem_cons.mp hW
    obtain ⟨t, hstep, hctx, hbuf⟩ := exec_of_keepsContext hc s
    obtain ⟨u, hrest, hctx', hbuf'⟩ := ih hW t
    exact ⟨u, (execAll_cons hstep).trans hrest, hctx'.trans hctx, hbuf'.trans hbuf⟩

/-- Settles O46: the second HSUM meets the context that the first one met. -/
theorem hsumIsIdempotent : Obligations.HsumIsIdempotent := by
  intro s W hW
  obtain ⟨u, hrun, hctx, hbuf⟩ := execAll_of_keepsContext hW
    (respond (digestResponse (squeezeFrom (hsumScratch s))) (releaseScr (latchSel s)))
  have hsame : SameContext u s := ⟨by simpa using hctx, by simpa using hbuf⟩
  refine ⟨_, u, _, exec_hsum s, hrun, exec_hsum u, ?_, by simpa using hctx, by simpa using hbuf⟩
  rw [respond_respPort, respond_respPort, hsame.hsumScratch_eq]

/-! ### The digest of the message written -/

/-- R146: from a context that holds M, HSUM answers the digest of M, and the context still holds
M (R144). -/
theorem HoldsMessage.exec_hsum {s : State} {M : List Byte} (h : HoldsMessage s M) :
    ∃ t, exec .hsum s = .next t ∧ HoldsMessage t M ∧
      t.respPort = some (digestResponse (keccak256Of M)) := by
  refine ⟨_, Machine.exec_hsum s, h.congr (by simp) (by simp), ?_⟩
  rw [respond_respPort, h.squeeze_hsumScratch]

/-- Settles O47: the response is the digest of the message the context holds. -/
theorem hsumReturnsDigestOfTheMessage : Obligations.HsumReturnsDigestOfTheMessage := by
  intro s M h
  obtain ⟨t, hexec, -, hresp⟩ := h.exec_hsum
  exact ⟨t, hexec, hresp⟩

/-- One HWRITE per chunk and HSUM continue the message by the chunks. By induction on the chunks:
each HWRITE appends its chunk. -/
theorem HoldsMessage.execAll_stream {s : State} {M : List Byte} (h : HoldsMessage s M)
    (chunks : List (List Byte)) :
    ∃ t, execAll (chunks.map Instr.hwrite ++ [.hsum]) s = .next t ∧
      HoldsMessage t (M ++ chunks.flatten) ∧
      t.respPort = some (digestResponse (keccak256Of (M ++ chunks.flatten))) := by
  induction chunks generalizing s M with
  | nil =>
    obtain ⟨t, hexec, ht⟩ := h.exec_hsum
    exact ⟨t, execAll_cons hexec, by simpa using ht⟩
  | cons p chunks ih =>
    have hp : HoldsMessage (respond okResponse (writeContext p (latchSel s))) (M ++ p) :=
      h.append p (by simp) (by simp)
    obtain ⟨t, hrun, ht⟩ := ih hp
    exact ⟨t, (execAll_cons (exec_hwrite p s)).trans hrun, by simpa using ht⟩

/-- R151: from any state HRESET starts the message that the chunks make up. -/
theorem execAll_hreset_stream (s : State) (chunks : List (List Byte)) :
    ∃ t, execAll (.hreset :: (chunks.map Instr.hwrite ++ [.hsum])) s = .next t ∧
      HoldsMessage t chunks.flatten ∧
      t.respPort = some (digestResponse (keccak256Of chunks.flatten)) := by
  rw [execAll_cons (exec_hreset s)]
  exact (holdsMessage_nil (by simp) (by simp)).execAll_stream chunks

/-- Settles O51: the chunks are streamed into the message they make up, and HASH answers its
Keccak256. -/
theorem digestIgnoresChunkBoundaries : Obligations.DigestIgnoresChunkBoundaries := by
  intro s chunks
  obtain ⟨t, hrun, -, hresp⟩ := execAll_hreset_stream s chunks
  refine ⟨t, _, hrun, exec_hash chunks.flatten s, hresp, ?_⟩
  rw [hresp, respond_respPort, squeezeFrom_hashScratch]

/-- Settles O53: two streams of one chunk each, the second from the context that the first HSUM
left. -/
theorem writeAfterSumContinues : Obligations.WriteAfterSumContinues := by
  intro s A B
  obtain ⟨t, hfirst, hA, hrespA⟩ := execAll_hreset_stream s [A]
  obtain ⟨u, hsecond, -, hrespB⟩ := hA.execAll_stream [B]
  simp only [List.flatten_singleton] at hrespA hrespB
  exact ⟨t, u, hfirst, hsecond, hrespA, hrespB⟩

end Sys2Proof.Machine

/-!
PROOFS. The dispatcher (spec/43_dispatch.md R161 to R164): the selection from a held `cap_accel`, the
commands that make it, and the steps that keep it.
-/
namespace Sys2Proof.Machine

/-! ### Select and the sample -/

@[simp] theorem exec_select (build c : Bool) (s : State) :
    exec (.select build c) s = .next (returnValue (.backend (selectBackend build c)) s) := rfl

theorem selectBackend_eq (build c : Bool) :
    selectBackend build c = if build = true ∧ c = true then .accel else .portable := by
  simp [selectBackend]

/-- R162: a held level samples as 1 when it is a clean 1, and else as 0. -/
theorem sampleCap_of_held {l : CapLevel} (hl : l ≠ .unsettled) (n : Nat) :
    sampleCap l true n = decide (l = .one) := by
  rcases sampleCap_cases l true n with ⟨-, -, hsample⟩ | ⟨hstable | hunsettled, -⟩
  · exact hsample
  · contradiction
  · exact absurd hunsettled hl

/-- Settles O55: Select returns what its table says, and each of the five held levels is or is not a
clean 1. -/
theorem selectAndSampleTables : Obligations.SelectAndSampleTables := by
  refine ⟨fun s build c => ?_, fun n => ?_⟩
  · rw [exec_select, selectBackend_eq, returnValue]
  · simp [sampleCap_of_held]

/-! ### The commands -/

@[simp] theorem exec_latchSel (s : State) : exec .latchSel s = .next (latchSel s) := rfl

theorem latchSel_sel_of_valid {s : State} (h : s.selValid = true) : (latchSel s).sel = s.sel := by
  rw [latchSel_of_valid h]

/-- R128: a legal command leaves the selection that its LatchSel left. -/
theorem exec_decode_selection_of_isLegal {c : Command} (h : c.isLegal = true) (s : State) :
    ∃ t, exec (decode c) s = .next t ∧ t.selValid = true ∧ t.sel = (latchSel s).sel := by
  rcases command_cases c with rfl | ⟨p, rfl⟩ | rfl | ⟨p, rfl⟩ | hillegal
  · rw [decode_hreset_word]; exact ⟨_, exec_hreset s, by simp⟩
  · rw [decode_hwrite_word]; exact ⟨_, exec_hwrite p s, by simp⟩
  · rw [decode_hsum_word]; exact ⟨_, exec_hsum s, by simp⟩
  · rw [decode_hash_word]; exact ⟨_, exec_hash p s, by simp⟩
  · simp [h] at hillegal

/-- Settles O56: a legal command runs the latch, which is idle after a selection; an illegal one
gives its response only. -/
theorem latchSelActsOnce : Obligations.LatchSelActsOnce := by
  refine ⟨fun s => ⟨_, exec_latchSel s, latched_latchSel s, by simp⟩, fun s c => ?_⟩
  rcases hlegal : c.isLegal with _ | _
  · exact ⟨_, exec_decode_of_not_isLegal hlegal s, by simp⟩
  · obtain ⟨t, hexec, hvalid, hsel⟩ := exec_decode_selection_of_isLegal hlegal s
    exact ⟨t, hexec, fun _ => ⟨hvalid, fun hs => hsel.trans (latchSel_sel_of_valid hs)⟩, by simp⟩

/-! ### The steps -/

/-- SEL_VALID and SEL stay as they are. -/
def KeepsSelection (s t : State) : Prop := t.selValid = s.selValid ∧ t.sel = s.sel

theorem KeepsSelection.trans {s t u : State} (hst : KeepsSelection s t)
    (htu : KeepsSelection t u) : KeepsSelection s u :=
  ⟨Eq.trans htu.1 hst.1, Eq.trans htu.2 hst.2⟩

theorem keepsSelection_nextTurn_snd (s : State) : KeepsSelection s (nextTurn s).2 := by
  simp [KeepsSelection, nextTurn_snd]

/-- Once a selection is made no command, legal or not, alters it. -/
theorem keepsSelection_of_exec {c : Command} {s t : State}
    (hexec : exec (decode c) s = .next t) (hs : s.selValid = true) : KeepsSelection s t := by
  obtain ⟨t', hexec', hlegal, hillegal⟩ := latchSelActsOnce.2 s c
  obtain rfl : t = t' := by simpa [hexec] using hexec'
  rcases hc : c.isLegal with _ | _
  · exact hillegal hc
  · obtain ⟨hvalid, hsel⟩ := hlegal hc
    exact ⟨hvalid.trans hs.symm, hsel hs⟩

/-- R164: a drive of `cap_accel` is among the moves that leave the selection. -/
theorem keepsSelection_outsideTurn {u : Turn} (ha : u ≠ .assertRst) (hb : u ≠ .abortRst)
    (s : State) : KeepsSelection s (outsideTurn u s) := by
  cases u with
  | assertRst | abortRst => contradiction
  | block | offer c | take | drive l | releaseRst => exact ⟨rfl, rfl⟩

/-- A step either is a power-on reset, which clears SEL_VALID, or keeps a selection once made. -/
theorem selection_cases_of_step {s t : State} (hs : s.selValid = true) (hstep : step s = .next t) :
    (resetsNow s = true ∧ t.selValid = false) ∨ (resetsNow s = false ∧ KeepsSelection s t) := by
  have hnext := keepsSelection_nextTurn_snd s
  rcases step_cases hstep with ⟨c, rest, s1, hturn, hrst, -, -, rfl, hexec⟩ | ⟨hturn, -, rfl⟩ |
    ⟨hturn, rfl⟩
  · have hkeep := keepsSelection_of_exec hexec hs
    exact .inr ⟨(resetsNow_of_block hturn).trans hrst, hkeep⟩
  · rw [resetsNow_of_block hturn]
    rcases hrst : s.rst with _ | _
    · rw [waitTurn_of_released (by simpa using hrst)]
      exact .inr ⟨rfl, hnext⟩
    · rw [waitTurn_of_rst (by simpa using hrst)]
      exact .inl ⟨rfl, rfl⟩
  · have hiff := resetsNow_iff_of_outside hturn
    rcases hreset : resetsNow s with _ | _
    · obtain ⟨ha, hb⟩ := not_or.mp (mt hiff.mpr (by simp [hreset]))
      exact .inr ⟨rfl, hnext.trans (keepsSelection_outsideTurn ha hb _)⟩
    · rcases hiff.mp hreset with hu | hu <;> rw [hu] <;> exact .inl ⟨rfl, rfl⟩

/-- Settles O57: the two cases of a step exclude each other by `resetsNow`. -/
theorem selectionIsFixedUntilReset : Obligations.SelectionIsFixedUntilReset := by
  intro s t hs hstep
  rcases selection_cases_of_step hs hstep with ⟨hreset, hclear⟩ | ⟨hreset, hvalid, hsel⟩
  · exact ⟨by simp [hreset], fun _ => hclear⟩
  · exact ⟨fun _ => ⟨hvalid.trans hs, hsel⟩, by simp [hreset]⟩

end Sys2Proof.Machine

/-!
PROOFS. Exceptions (spec/60_exceptions.md R176 to R182): the illegal command, whose response is all
that it leaves behind, and the reset that abandons a command.
-/
namespace Sys2Proof.Machine

/-! ### A pending response is no input of a command -/

theorem respond_respond (r r' : Response) (s : State) :
    respond r' (respond r s) = respond r' s := rfl

theorem resetContext_respond (r : Response) (s : State) :
    resetContext (respond r s) = respond r (resetContext s) := rfl

theorem writeContext_respond (p : List Byte) (r : Response) (s : State) :
    writeContext p (respond r s) = respond r (writeContext p s) := rfl

theorem releaseScr_respond (r : Response) (s : State) :
    releaseScr (respond r s) = respond r (releaseScr s) := rfl

theorem hsumScratch_respond (r : Response) (s : State) :
    hsumScratch (respond r s) = hsumScratch s := rfl

/-- Every stage of a command commutes with an earlier response, which its own response replaces. -/
theorem exec_decode_respond (d : Command) (r : Response) (s : State) :
    exec (decode d) (respond r s) = exec (decode d) s := by
  rcases decode_cases d with hd | hd | hd | hd | hd <;> rw [hd]
  · rw [exec_hreset, latchSel_respond, resetContext_respond, respond_respond, exec_hreset]
  · rw [exec_hwrite, latchSel_respond, writeContext_respond, respond_respond, exec_hwrite]
  · rw [exec_hsum, latchSel_respond, releaseScr_respond, respond_respond, hsumScratch_respond,
      exec_hsum]
  · rw [exec_hash, latchSel_respond, releaseScr_respond, respond_respond, exec_hash]
  · rw [exec_illegal, respond_respond, exec_illegal]

/-- A run of one operation is that operation. -/
theorem execAll_singleton {i : Instr} {s t : State} (h : exec i s = .next t) :
    execAll [i] s = exec i s := by
  rw [execAll_cons h, execAll_nil, h]

/-- Settles O49: ILLEGAL gives its response and nothing else, and no command reads a response. -/
theorem illegalCommandIsPrecise : Obligations.IllegalCommandIsPrecise := by
  intro s c
  refine ⟨exec_illegal c s, fun d => ?_⟩
  obtain ⟨t, hd⟩ := exec_decode_completes d (respond illegalResponse s)
  calc execAll [.illegal c, decode d] s
      = execAll [decode d] (respond illegalResponse s) := execAll_cons (exec_illegal c s)
    _ = exec (decode d) (respond illegalResponse s) := execAll_singleton hd
    _ = exec (decode d) s := exec_decode_respond d illegalResponse s

/-! ### A reset during a command -/

/-- R182: with a command in progress, abandoning it takes it off the port and does nothing else. -/
theorem abandonCommand_cons {s : State} {c : Command} {rest : List Command} (hrst : s.rst = false)
    (hresp : s.respPort = none) (hport : s.cmdPort = c :: rest) :
    abandonCommand s = { s with cmdPort := rest } := by
  rw [abandonCommand, nextCommand_cons hrst hresp hport]

/-- A reset during a command is a power-on reset from the port without that command. -/
theorem step_abortRst {s : State} {c : Command} {rest : List Command} {ts : List Turn}
    (hrst : s.rst = false) (hresp : s.respPort = none) (hport : s.cmdPort = c :: rest)
    (hturns : s.turns = .abortRst :: ts) :
    step s = .next (powerOn { s with cmdPort := rest, turns := ts }) := by
  have habandon : abandonCommand { s with turns := ts } = { s with cmdPort := rest, turns := ts } :=
    abandonCommand_cons hrst hresp hport
  rw [step_of_turns hturns (by simp), outsideTurn, habandon]

/-- Settles O15: the reset during the command and the reset of the state where it was never offered
are one and the same power-on reset. -/
theorem resetDuringCommandAbandonsIt : Obligations.ResetDuringCommandAbandonsIt := by
  intro s c rest ts hrst hresp hport hturns
  exact ⟨_, step_abortRst hrst hresp hport hturns, step_eq_powerOn (.inl rfl), zeroSponge_isZero,
    rfl, rfl, rfl, rfl⟩

end Sys2Proof.Machine

/-!
PROOFS. An unstable `cap_accel` (spec/70_reset_and_hazards.md R204, requirement 2): what the first
legal command selects, and how every step accounts for a change of the input.
-/
namespace Sys2Proof.Machine

/-! ### The first selection -/

theorem latchSel_sel_of_not_valid {s : State} (h : s.selValid = false) :
    (latchSel s).sel =
      selectBackend Config.buildAccel (sampleCap s.capAccel s.capStable s.draws) := by
  simp [latchSel, h]

/-- R204: a level that moved since the release of `rst`, or that is not settled, samples as either
value. -/
theorem sampleCap_of_unstable {l : CapLevel} {stable : Bool} (h : stable = false ∨ l = .unsettled)
    (n : Nat) : sampleCap l stable n = Config.freeCap n := by
  rcases sampleCap_cases l stable n with ⟨hstable, hl, -⟩ | ⟨-, hsample⟩
  · exact absurd h (by simp [hstable, hl])
  · exact hsample

/-! ### The record of changes -/

/-- The input counts as stable after a step when it did before, and `rst` was still asserted or the
level is the same (R204). -/
def RecordsCap (s t : State) : Prop :=
  t.capStable = (s.capStable && (s.rst || decide (t.capAccel = s.capAccel)))

theorem recordsCap_of_eq {s t : State} (hlevel : t.capAccel = s.capAccel)
    (hstable : t.capStable = s.capStable) : RecordsCap s t := by
  simp [RecordsCap, hlevel, hstable]

@[simp] theorem nextTurn_snd_capAccel (s : State) : (nextTurn s).2.capAccel = s.capAccel := by
  simp [nextTurn_snd]
@[simp] theorem nextTurn_snd_capStable (s : State) : (nextTurn s).2.capStable = s.capStable := by
  simp [nextTurn_snd]

/-- Choosing the turn touches nothing that the record reads. -/
theorem recordsCap_nextTurn_snd_iff (s t : State) :
    RecordsCap (nextTurn s).2 t ↔ RecordsCap s t := by
  simp [RecordsCap]

/-- A command samples `cap_accel` and does not touch it. -/
theorem exec_decode_cap {c : Command} {s t : State} (hexec : exec (decode c) s = .next t) :
    t.capAccel = s.capAccel ∧ t.capStable = s.capStable := by
  rcases exec_decode_cases hexec with ⟨-, rfl⟩ | ⟨-, rfl⟩ | ⟨-, rfl⟩ | ⟨-, rfl⟩ | ⟨-, rfl⟩ <;> simp

/-- An outside move that is no reset continues the record: only a drive touches the level. -/
theorem recordsCap_outsideTurn {u : Turn} (ha : u ≠ .assertRst) (hb : u ≠ .abortRst)
    (s : State) : RecordsCap s (outsideTurn u s) := by
  cases u with
  | assertRst | abortRst => contradiction
  | drive l => exact driveCap_capStable l s
  | block | offer c | take | releaseRst => exact recordsCap_of_eq rfl rfl

/-- A step either is a power-on reset, which starts the record anew, or continues the record. -/
theorem cap_cases_of_step {s t : State} (hstep : step s = .next t) :
    (resetsNow s = true ∧ t.capStable = true) ∨ (resetsNow s = false ∧ RecordsCap s t) := by
  rcases step_cases hstep with ⟨c, rest, s1, hturn, hrst, -, -, rfl, hexec⟩ | ⟨hturn, -, rfl⟩ |
    ⟨hturn, rfl⟩
  · obtain ⟨hlevel, hstable⟩ := exec_decode_cap hexec
    exact .inr ⟨(resetsNow_of_block hturn).trans hrst, recordsCap_of_eq hlevel hstable⟩
  · rw [resetsNow_of_block hturn]
    rcases hrst : s.rst with _ | _
    · rw [waitTurn_of_released (by simpa using hrst)]
      exact .inr ⟨rfl, recordsCap_of_eq (by simp) (by simp)⟩
    · rw [waitTurn_of_rst (by simpa using hrst)]
      exact .inl ⟨rfl, rfl⟩
  · have hiff := resetsNow_iff_of_outside hturn
    rcases hreset : resetsNow s with _ | _
    · obtain ⟨ha, hb⟩ := not_or.mp (mt hiff.mpr (by simp [hreset]))
      exact .inr ⟨rfl, (recordsCap_nextTurn_snd_iff s _).mp (recordsCap_outsideTurn ha hb _)⟩
    · rcases hiff.mp hreset with hu | hu <;> rw [hu] <;> exact .inl ⟨rfl, rfl⟩

/-- Settles O60: the latch of the first legal command samples a held level by R162's table and any
other as a free value; every step restarts the record or continues it. -/
theorem unstableCapSamplesEither : Obligations.UnstableCapSamplesEither := by
  refine ⟨fun s c hlegal hs => ?_, fun s t hstep => ?_⟩
  · obtain ⟨t, hexec, hvalid, hsel⟩ := exec_decode_selection_of_isLegal hlegal s
    rw [latchSel_sel_of_not_valid hs, selectBackend_eq] at hsel
    refine ⟨t, hexec, hvalid, fun hstable hl => ?_, fun hunstable => ?_⟩
    · simpa [hstable, sampleCap_of_held hl] using hsel
    · simpa [sampleCap_of_unstable hunstable] using hsel
  · rcases cap_cases_of_step hstep with ⟨hreset, hstable⟩ | ⟨hreset, hrecord⟩
    · exact ⟨fun _ => hstable, by simp [hreset]⟩
    · exact ⟨by simp [hreset], fun _ => hrecord⟩

end Sys2Proof.Machine
